-- ==== Sys2Proof/Word.lean ====
section
/-! DEFINITION. The word types of the block (00_scope.md R4, R5; 20_memory.md R46), and the
transaction: a command word with its operand words (30_encoding.md R66). -/

namespace Sys2Proof

/-- A frame field, a payload element, a response beat, the STATUS register: 8 bits (R4). -/
abbrev Byte := BitVec 8

/-- A checksum, the CRC register, FRM_LEN, the IMM16 field: 16 bits (R4). -/
abbrev Half := BitVec 16

/-- An operand word: 16 bits (R63). -/
abbrev OperandWord := BitVec 16

/-- A command word: 32 bits (R61). -/
abbrev CommandWord := BitVec 32

/-- A transaction is a pair of a command word and its list of operand words, `opd[0]` first (R66).
Not every such pair is well formed: that is a check, not part of the type. -/
structure Transaction where
  word     : CommandWord
  operands : List OperandWord
  deriving DecidableEq, Repr

end Sys2Proof
end

