-- ==== Sys2Proof/Machine/Checksum.lean ====
section
/-! DEFINITION. CRC16/Modbus: reflected, polynomial 0xA001, seed 0xFFFF, no final XOR (40_crc.md
R100, R101). -/

namespace Sys2Proof.Machine

/-- The reflected polynomial (R1, R100). -/
def crcPolynomial : Half := 0xA001#16

/-- The seed (R1, R101). -/
def crcSeed : Half := 0xFFFF#16

/-- One pass of the loop of `crc_step` (R100): shift right, and apply the polynomial when the bit
shifted out is 1. -/
def crcBit (c : Half) : Half :=
  if c.getLsbD 0 then (c >>> 1) ^^^ crcPolynomial else c >>> 1

/-- `crc_step(c, b)`: exclusive-or the byte in, then eight passes (R100). -/
def crcStep (c : Half) (b : Byte) : Half := Nat.iterate crcBit 8 (c ^^^ b.setWidth 16)

/-- `crc_step` folded over bytes from a running value, first byte first (R101, R106). -/
def crcFold (c : Half) (s : List Byte) : Half := s.foldl crcStep c

/-- `crc16(s)` (R101). -/
def crc16 (s : List Byte) : Half := crcFold crcSeed s

/-- The table form of `crc_step` (R102): `T[i] = crc_step(0x0000, i)`. -/
def crcTable (i : Byte) : Half := crcStep 0x0000#16 i

end Sys2Proof.Machine
end

