-- ==== Sys2Proof/Machine/Flags.lean ====
section
/-! DEFINITION. The status codes. The block has no flags: "Apart from the response itself, the only
record of an outcome is STATUS" (10_state.md R31; 60_exceptions.md R160). -/

namespace Sys2Proof.Machine

/-- The nine outcomes of a command (R160). -/
inductive StatusCode where
  | ok
  | invalidByteValue
  | checksumMismatch
  | unexpectedId
  | unexpectedCommand
  | frameTooShort
  | payloadTooLong
  | noFrame
  | illegalOp
  deriving DecidableEq, Repr

/-- The numeric codes of the table of R160. -/
def StatusCode.code : StatusCode → Byte
  | .ok => 0x00#8
  | .invalidByteValue => 0x01#8
  | .checksumMismatch => 0x02#8
  | .unexpectedId => 0x03#8
  | .unexpectedCommand => 0x04#8
  | .frameTooShort => 0x05#8
  | .payloadTooLong => 0x06#8
  | .noFrame => 0x07#8
  | .illegalOp => 0x08#8

end Sys2Proof.Machine
end

