-- ==== Sys2Proof/Machine/Operands.lean ====
section
/-! DEFINITION. Operand words, bytes and the two halves of a 16-bit value (00_scope.md R7;
30_encoding.md R63, R64; 20_memory.md R42). -/

namespace Sys2Proof.Machine

/-- `lo8(v) = v[7:0]` (R7). -/
def lo8 (v : Half) : Byte := v.extractLsb' 0 8

/-- `hi8(v) = v[15:8]` (R7). -/
def hi8 (v : Half) : Byte := v.extractLsb' 8 8

/-- `le16(a, b) = a | (b << 8)` (R7). -/
def le16 (a b : Byte) : Half := a.setWidth 16 ||| (b.setWidth 16 <<< 8)

/-- `byte_ok(u) = (u[15:8] = 0x00)` (R64). -/
def byteOk (u : OperandWord) : Bool := u.extractLsb' 8 8 == 0x00#8

/-- The byte value `u[7:0]` of an operand word (R64). -/
def operandByte (u : OperandWord) : Byte := u.extractLsb' 0 8

/-- Every operand word carries a byte (R126, R133: no k with not byte_ok). -/
def allBytesOk (us : List OperandWord) : Bool := us.all byteOk

/-- The operand word the host puts a byte into: `zext_16` (R138). -/
def byteOperand (b : Byte) : OperandWord := b.setWidth 16

/-- The host's conversion of an integer to an operand word: `v mod 2^16`, for integers in
-32768..65535 only (R63). For any other integer the host issues no command (R161). -/
def operandOfInt (v : Int) : Option OperandWord :=
  if -32768 ≤ v ∧ v ≤ 65535 then some (BitVec.ofInt 16 v) else none

end Sys2Proof.Machine
end

