-- ==== Sys2Proof/Machine/Codec.lean ====
section
/-! DEFINITION. The pure frame codec: `encode` and `decode` of 41_frame.md R120 and R121. -/

namespace Sys2Proof.Machine

/-- `encode(id, cmd, pay)` (R120): the body, then its checksum, low byte first (20_memory.md R42). -/
def encodeFrame (id cmd : Byte) (pay : List Byte) : List Byte :=
  let body := id :: cmd :: pay
  body ++ [lo8 (crc16 body), hi8 (crc16 body)]

/-- "Ok(pay, r) or Err(code)" (R121). -/
inductive FrameResult where
  | ok (pay : List Byte) (chk : Half)
  | err (e : StatusCode)
  deriving DecidableEq, Repr

/-- The CRC computed over the received bytes before the last two: `crc16(raw[0..L-2))` (R121). -/
def computedCrc (raw : List Byte) : Half := crc16 (raw.take (raw.length - 2))

/-- The transmitted checksum: `le16(raw[L-2], raw[L-1])` (R121, R42). It is used for L >= 4 only, so the
default of `getD` is never read. -/
def receivedChecksum (raw : List Byte) : Half :=
  le16 (raw.getD (raw.length - 2) 0#8) (raw.getD (raw.length - 1) 0#8)

/-- `raw[2..L-2)` (R121). -/
def receivedPayload (raw : List Byte) : List Byte := (raw.take (raw.length - 2)).drop 2

/-- `decode(eid, ecmd, raw)` for `len(raw) >= 4` (R121): the checksum is compared first, then the id,
then the command (60_exceptions.md R170). -/
def decodeFrame (eid ecmd : Byte) (raw : List Byte) : FrameResult :=
  if computedCrc raw ≠ receivedChecksum raw then .err .checksumMismatch
  else if raw.getD 0 0#8 ≠ eid then .err .unexpectedId
  else if raw.getD 1 0#8 ≠ ecmd then .err .unexpectedCommand
  else .ok (receivedPayload raw) (receivedChecksum raw)

end Sys2Proof.Machine
end

