-- ==== Sys2Proof/Config.lean ====
section
/-! DEFINITION. What an implementation fixes: the one size parameter `MAX_PAYLOAD` (00_scope.md R4),
and the free values the port level leaves open (70_reset_and_hazards.md R205; 30_encoding.md R60). -/

namespace Sys2Proof

/-- The block's configuration: `MAX_PAYLOAD`, "25 <= MAX_PAYLOAD <= 65531" (R4). -/
structure Config where
  maxPayload : Nat
  atLeast    : 25 ≤ maxPayload
  atMost     : maxPayload ≤ 65531

/-- "This spec fixes MAX_PAYLOAD = 255 for this hardware" (R4). -/
def Config.hardware : Config := ⟨255, by decide, by decide⟩

/-- How many clock edges the block lets pass before it offers its next ready or valid. A free value:
"The number of cycles at each step is not fixed. It is finite and at least zero" (R76, R205;
93_implementation_defined.md U2; DESIGN CHOICE, log entry 5). -/
opaque Config.portStall : Nat → Nat

/-- What the block drives on rsp_data while rsp_valid is 0. A free value: R60 gives the port no
meaning then (DESIGN CHOICE, log entry 6). -/
opaque Config.idleRspData : Nat → Byte

/-- What the block drives on rsp_last while rsp_valid is 0. A free value (DESIGN CHOICE, log entry 6). -/
opaque Config.idleRspLast : Nat → Bool

end Sys2Proof
end

