-- ==== Sys2Proof/Syntax.lean ====
section
/-! DEFINITION. The eight commands of the opcode map (30_encoding.md R62), one constructor for each
row of spec/opcode_table.json. -/

namespace Sys2Proof

/-- A command together with the operands it takes. The counts `n` of FRM.LOAD and `L` of FRM.DECODE
are not stored: they are the lengths of the operand lists (R65, R70, R71). -/
inductive Instr where
  /-- CRC.INIT (R103). -/
  | crcInit
  /-- CRC.UPDATE b (R104); `b` is IMM16[7:0] (R69). -/
  | crcUpdate (b : Byte)
  /-- CRC.READ (R105). -/
  | crcRead
  /-- FRM.LOAD id, cmd, p0..p(n-1) (R126), as operand words not yet checked by `byte_ok` (R70). -/
  | frmLoad (id cmd : OperandWord) (pay : List OperandWord)
  /-- FRM.ENCODE (R131). -/
  | frmEncode
  /-- FRM.DECODE b0..b(L-1) (R133), as operand words not yet checked by `byte_ok` (R71). -/
  | frmDecode (raw : List OperandWord)
  /-- FRM.READ (R139). -/
  | frmRead
  /-- STAT.READ (R150). -/
  | statRead
  deriving DecidableEq, Repr

end Sys2Proof
end

