-- ==== Sys2Proof/WellFormed.lean ====
section
/-! DEFINITION. Which terms of `Instr` stand for a transaction: the length a command word carries in
IMM16 has 16 bits (30_encoding.md R61, R69). -/

namespace Sys2Proof

/-- The payload length `n` and the frame length `L` are values of the 16-bit field IMM16 (R69:
"in 0..65535"). Nothing else can be ill formed: every field value and every operand word is legal
(R64: a bad byte is an error the block reports, not an ill-formed command). -/
def Instr.wellFormed : Instr → Bool
  | .crcInit => true
  | .crcUpdate _ => true
  | .crcRead => true
  | .frmLoad _ _ pay => decide (pay.length ≤ 65535)
  | .frmEncode => true
  | .frmDecode raw => decide (raw.length ≤ 65535)
  | .frmRead => true
  | .statRead => true

end Sys2Proof
end

