-- ==== Sys2Proof/Decode.lean ====
section
/-! DEFINITION. The decoder from transactions to commands, the encoder back, and the opcode table as
masks and patterns (30_encoding.md R61, R62, R65, R68, R69, R72, R74). -/

namespace Sys2Proof

/-! ## Fields of a command word (R61) -/

/-- OP, bits 31:24. -/
def opField (w : CommandWord) : Byte := w.extractLsb' 24 8

/-- RSV, bits 23:16. -/
def rsvField (w : CommandWord) : Byte := w.extractLsb' 16 8

/-- IMM16, bits 15:0. -/
def immField (w : CommandWord) : Half := w.extractLsb' 0 16

/-- The command word with the given OP and IMM16, and RSV = 0x00. -/
def commandWord (op : Byte) (imm : Half) : CommandWord := op ++ (0x00#8 ++ imm)

/-! ## What a command word alone fixes (R72) -/

/-- A legal command word: the command it selects and what its IMM16 carries. -/
inductive Command where
  | crcInit
  | crcUpdate (b : Byte)
  | crcRead
  | frmLoad (n : Half)
  | frmEncode
  | frmDecode (len : Half)
  | frmRead
  | statRead
  deriving DecidableEq, Repr

/-- The command whose IMM16 must be 0x0000 (R68, condition 3). -/
def whenZero (imm : Half) (c : Command) : Option Command :=
  if imm = 0x0000#16 then some c else none

/-- CRC.UPDATE needs IMM16[15:8] = 0x00 (R68, condition 3). -/
def updateCommand (imm : Half) : Option Command :=
  if imm.extractLsb' 8 8 = 0x00#8 then some (.crcUpdate (imm.extractLsb' 0 8)) else none

/-- The opcode map (R62), with the condition each row puts on IMM16. -/
def opcodeMap (op : Byte) (imm : Half) : Option Command :=
  if op = 0x01#8 then whenZero imm .crcInit
  else if op = 0x02#8 then updateCommand imm
  else if op = 0x03#8 then whenZero imm .crcRead
  else if op = 0x10#8 then some (.frmLoad imm)
  else if op = 0x11#8 then whenZero imm .frmEncode
  else if op = 0x12#8 then some (.frmDecode imm)
  else if op = 0x13#8 then whenZero imm .frmRead
  else if op = 0x20#8 then whenZero imm .statRead
  else none

/-- The command a legal word selects, `none` for an illegal word (R68). -/
def decodeCommand (w : CommandWord) : Option Command :=
  if rsvField w = 0x00#8 then opcodeMap (opField w) (immField w) else none

/-- A legal command word (R68). -/
def legalWord (w : CommandWord) : Bool := (decodeCommand w).isSome

/-- How many operand words a command takes (R65). -/
def Command.need : Command → Nat
  | .frmLoad n => n.toNat + 2
  | .frmDecode len => len.toNat
  | .crcInit => 0
  | .crcUpdate _ => 0
  | .crcRead => 0
  | .frmEncode => 0
  | .frmRead => 0
  | .statRead => 0

/-- `need(w)`: the operand words the command word `w` takes, 0 for every illegal word (R65, R152). -/
def need (w : CommandWord) : Nat :=
  match decodeCommand w with
  | some c => c.need
  | none => 0

/-- A transaction is well formed when `len(opds) = need(w)` (R66). -/
def Transaction.wellFormed (t : Transaction) : Bool := t.operands.length == need t.word

/-! ## The decoder -/

/-- Why a transaction is not a command. -/
inductive DecodeError where
  /-- The command word is illegal (R68) and has no operand words: the block reports IllegalOp (R151). -/
  | illegalOp
  /-- The transaction has the wrong number of operand words (R66): a model refuses it. -/
  | operandCount
  deriving DecidableEq, Repr

/-- A command that takes no operand words (R65). -/
def noOperands (i : Instr) : List OperandWord → Except DecodeError Instr
  | [] => .ok i
  | _ :: _ => .error .operandCount

/-- FRM.LOAD takes `n + 2` operand words: the id, the command, the payload (R65, R70). -/
def loadOperands (n : Half) : List OperandWord → Except DecodeError Instr
  | [] => .error .operandCount
  | [_] => .error .operandCount
  | id :: cmd :: pay =>
    if pay.length = n.toNat then .ok (.frmLoad id cmd pay) else .error .operandCount

/-- FRM.DECODE takes `L` operand words (R65, R71). -/
def frameOperands (len : Half) (raw : List OperandWord) : Except DecodeError Instr :=
  if raw.length = len.toNat then .ok (.frmDecode raw) else .error .operandCount

/-- A command with its operand words, of which there must be `need`. -/
def Command.withOperands (c : Command) (opds : List OperandWord) : Except DecodeError Instr :=
  match c with
  | .crcInit => noOperands .crcInit opds
  | .crcUpdate b => noOperands (.crcUpdate b) opds
  | .crcRead => noOperands .crcRead opds
  | .frmLoad n => loadOperands n opds
  | .frmEncode => noOperands .frmEncode opds
  | .frmDecode len => frameOperands len opds
  | .frmRead => noOperands .frmRead opds
  | .statRead => noOperands .statRead opds

/-- The decoder, total on every transaction. -/
def decode (t : Transaction) : Except DecodeError Instr :=
  match decodeCommand t.word with
  | some c => c.withOperands t.operands
  | none => if t.operands = [] then .error .illegalOp else .error .operandCount

/-! ## The encoder -/

/-- The transaction of a command (R62, R70, R71; the command words of R74). -/
def encode : Instr → Transaction
  | .crcInit => ⟨commandWord 0x01#8 0x0000#16, []⟩
  | .crcUpdate b => ⟨commandWord 0x02#8 (0x00#8 ++ b), []⟩
  | .crcRead => ⟨commandWord 0x03#8 0x0000#16, []⟩
  | .frmLoad id cmd pay => ⟨commandWord 0x10#8 (BitVec.ofNat 16 pay.length), id :: cmd :: pay⟩
  | .frmEncode => ⟨commandWord 0x11#8 0x0000#16, []⟩
  | .frmDecode raw => ⟨commandWord 0x12#8 (BitVec.ofNat 16 raw.length), raw⟩
  | .frmRead => ⟨commandWord 0x13#8 0x0000#16, []⟩
  | .statRead => ⟨commandWord 0x20#8 0x0000#16, []⟩

/-! ## The opcode table (spec/opcode_table.json) -/

/-- A row of the opcode table: a word belongs to it when its masked bits are the pattern. -/
structure OpcodeRow where
  mnemonic : String
  pattern  : CommandWord
  mask     : CommandWord
  deriving DecidableEq, Repr

/-- The word belongs to the row. -/
def OpcodeRow.selects (row : OpcodeRow) (w : CommandWord) : Bool := (w &&& row.mask) == row.pattern

/-- The eight rows, with the table's own match and mask. -/
def opcodeRows : List OpcodeRow :=
  [ ⟨"CRC.INIT", 0x01000000#32, 0xFFFFFFFF#32⟩,
    ⟨"CRC.UPDATE", 0x02000000#32, 0xFFFFFF00#32⟩,
    ⟨"CRC.READ", 0x03000000#32, 0xFFFFFFFF#32⟩,
    ⟨"FRM.LOAD", 0x10000000#32, 0xFFFF0000#32⟩,
    ⟨"FRM.ENCODE", 0x11000000#32, 0xFFFFFFFF#32⟩,
    ⟨"FRM.DECODE", 0x12000000#32, 0xFFFF0000#32⟩,
    ⟨"FRM.READ", 0x13000000#32, 0xFFFFFFFF#32⟩,
    ⟨"STAT.READ", 0x20000000#32, 0xFFFFFFFF#32⟩ ]

/-- The mnemonic of a command, as the opcode table spells it. -/
def Command.mnemonic : Command → String
  | .crcInit => "CRC.INIT"
  | .crcUpdate _ => "CRC.UPDATE"
  | .crcRead => "CRC.READ"
  | .frmLoad _ => "FRM.LOAD"
  | .frmEncode => "FRM.ENCODE"
  | .frmDecode _ => "FRM.DECODE"
  | .frmRead => "FRM.READ"
  | .statRead => "STAT.READ"

/-! ## An instruction as one number (the host's interface; DESIGN CHOICE, log entry 1) -/

/-- The transaction whose bits are the low `nbits` bits of `w`, every bit above them 0: the command
word in bits 31..0, operand word `k` in the 16 bits from bit `32 + 16 * k` on. It has as many
operand words as its command word takes. -/
def tableTransaction (nbits w : Nat) : Transaction :=
  let bits := w % 2 ^ nbits
  let word := BitVec.ofNat 32 bits
  ⟨word, (List.range (need word)).map fun k => BitVec.ofNat 16 (bits >>> (32 + 16 * k))⟩

/-- The command the decoder reads from an instruction given as a number. -/
def decodeTableWord (nbits w : Nat) : Option Instr :=
  match decode (tableTransaction nbits w) with
  | .ok i => some i
  | .error _ => none

end Sys2Proof
end

