-- ==== Sys2Proof/Machine/State.lean ====
section
/-! DEFINITION. The state of the block: its eight registers (10_state.md R20, R35), what is in flight
on its ports (R33; 30_encoding.md R60, R76), and the host's side of its channels. -/

namespace Sys2Proof.Machine

/-- The architectural state: "exactly the eight registers of rule R35" (R20). -/
structure Registers where
  /-- CRC, the running CRC16-Modbus value (R22). -/
  crc    : Half
  /-- STATUS, the code of the most recent completed command other than STAT.READ (R23). -/
  status : Byte
  /-- FRM_VALID (R24). -/
  valid  : Bool
  /-- FRM_ID (R25). -/
  fid    : Byte
  /-- FRM_CMD (R26). -/
  fcmd   : Byte
  /-- FRM_LEN (R27). -/
  flen   : Half
  /-- FRM_PAY, "a sequence of exactly FRM_LEN bytes" (R28). -/
  fpay   : List Byte
  /-- FRM_CHK (R29). -/
  fchk   : Half
  deriving DecidableEq, Repr

/-- What a command yields: "exec(S, w, opds) -> (S', rsp)" (R9). -/
structure Result where
  regs : Registers
  rsp  : List Byte
  deriving DecidableEq, Repr

/-- The inputs the block samples on one rising edge of clk (R60). -/
structure PortIn where
  rstN     : Bool
  cmdValid : Bool
  cmdData  : CommandWord
  opdValid : Bool
  opdData  : OperandWord
  rspReady : Bool
  deriving DecidableEq, Repr

/-- The outputs the block drives between two rising edges of clk (R60). -/
structure PortOut where
  cmdReady : Bool
  opdReady : Bool
  rspValid : Bool
  rspData  : Byte
  rspLast  : Bool
  deriving DecidableEq, Repr

/-- Where the block stands in the sequence of R76: the in-flight state "that exists only at the port
level" (R33). -/
inductive Phase where
  /-- rst_n was 0 at the last edge: every ready and valid is held at 0 (R190). -/
  | held
  /-- No transaction is in progress (step 1 of R76 awaits a command word). -/
  | idle
  /-- Step 2 of R76: the accepted command word and the operand words taken so far, `opd[0]` first. -/
  | taking (w : CommandWord) (taken : List OperandWord)
  /-- Step 4 of R76: the response beats already transferred and those still to be sent. -/
  | sending (sent rest : List Byte)
  deriving DecidableEq, Repr

/-- What the outside world does to the block. -/
inductive HostInput where
  /-- The host issues a whole transaction and takes its whole response (R66, R204). -/
  | transaction (t : Transaction)
  /-- One rising edge of clk with these inputs (R60). -/
  | clockEdge (p : PortIn)
  deriving DecidableEq, Repr

/-- The whole machine as plain data. -/
structure State where
  /-- The block's registers. -/
  regs      : Registers
  /-- What is in flight on the ports (R33). -/
  phase     : Phase
  /-- Edges still to pass before the phase's ready or valid is driven: a free value (DESIGN CHOICE, log
  entry 5). -/
  stall     : Nat
  /-- How many free values have been drawn: the model's own counter (DESIGN CHOICE, log entry 5). -/
  draws     : Nat
  /-- The host's inputs still to come, the next one first (DESIGN CHOICE, log entry 2). -/
  inbox     : List HostInput
  /-- The responses of the completed transactions, the oldest first (R204; DESIGN CHOICE, log entry 3). -/
  responses : List (List Byte)
  deriving DecidableEq, Repr

/-- The block has no fault: "no trap, no halt and no stuck state caused by a command word" (R153), and
an error is a status code (R171). The type has no constructor, so no step raises one. -/
inductive Fault where
  deriving DecidableEq, Repr

/-- Why the model gives a step no meaning. -/
inductive Refusal where
  /-- An arm of `exec` without a meaning raises it; no arm does. Safe: the model stops. -/
  | notModelled (mnemonic : String)
  /-- `transact` raises it for a transaction with the wrong operand count: "A model refuses a
  transaction that is not well formed" (R66). Safe: the model stops where the block would go on. -/
  | operandCount
  /-- `issue` raises it for a whole transaction issued while an earlier command still lacks operand
  words: that earlier transaction had too few (R66, R199). Safe: the model stops. -/
  | commandIncomplete
  deriving DecidableEq, Repr

/-- The registers after reset (R35, R190). -/
def Registers.reset : Registers where
  crc    := 0xFFFF#16
  status := 0x00#8
  valid  := false
  fid    := 0x00#8
  fcmd   := 0x00#8
  flen   := 0#16
  fpay   := []
  fchk   := 0x0000#16

/-- The machine right after reset: "After reset the block is idle" (R192), with no input pending
(DEDUCED, log entry 10). -/
def State.reset : State where
  regs      := Registers.reset
  phase     := .idle
  stall     := 0
  draws     := 0
  inbox     := []
  responses := []

end Sys2Proof.Machine
end

