-- ==== Sys2Proof/Machine/Ops.lean ====
section
/-! DEFINITION. The named operations over the registers and the channels: the register writes the
commands make, how a command ends (00_scope.md R8), and how its result is recorded. -/

namespace Sys2Proof.Machine

/-! ## Register writes -/

/-- `STATUS <- v`. -/
def Registers.withStatus (r : Registers) (v : Byte) : Registers := { r with status := v }

/-- `CRC <- c` (10_state.md R22). -/
def Registers.withCrc (r : Registers) (c : Half) : Registers := { r with crc := c }

/-- `FRM_VALID <- 0`, what a failed FRM.LOAD writes (R128). -/
def Registers.invalidate (r : Registers) : Registers := { r with valid := false }

/-- The frame a successful FRM.LOAD stores, with the checksum computed over it (R126, R127). -/
def Registers.withFrame (r : Registers) (id cmd : Byte) (pay : List Byte) : Registers :=
  { r with
    fid := id, fcmd := cmd, fpay := pay, flen := BitVec.ofNat 16 pay.length,
    fchk := crc16 (id :: cmd :: pay), valid := true }

/-- The payload and checksum a successful FRM.DECODE stores (R136). -/
def Registers.withResponse (r : Registers) (pay : List Byte) (chk : Half) : Registers :=
  { r with fpay := pay, flen := BitVec.ofNat 16 pay.length, fchk := chk }

/-! ## The end of a command (R8) -/

/-- `finish OK` after emitting `data`: status 0x00 in the response and in STATUS. -/
def finishOk (data : List Byte) (r : Registers) : Result :=
  ⟨r.withStatus StatusCode.ok.code, StatusCode.ok.code :: data⟩

/-- `finish-without-write OK` after emitting `data`: STATUS is not written (R150). -/
def finishWithoutWrite (data : List Byte) (r : Registers) : Result :=
  ⟨r, StatusCode.ok.code :: data⟩

/-- `raise E`: the command ends with code E, `STATUS <- E`, and nothing is emitted (R8, R67). It is no
trap: no state is saved and nothing jumps (R171), so there is nothing to return from (R172). -/
def raise (e : StatusCode) (r : Registers) : Result :=
  ⟨r.withStatus e.code, [e.code]⟩

/-! ## The machine around a command -/

/-- A command's register writes and its whole response, applied together (20_memory.md R45). -/
def State.complete (s : State) (x : Result) : State :=
  { s with regs := x.regs, responses := s.responses ++ [x.rsp] }

/-- Taking IllegalOp: `STATUS <- 0x08` and the response `[0x08]`, nothing else (42_status.md R151). -/
def takeIllegalOp (s : State) : State := s.complete (raise .illegalOp s.regs)

end Sys2Proof.Machine
end

