-- ==== Sys2Proof/Machine/Crc.lean ====
section
/-! DEFINITION. The CRC commands: CRC.INIT, CRC.UPDATE, CRC.READ (40_crc.md section 2). -/

namespace Sys2Proof.Machine

/-- CRC.INIT (R103): `CRC <- 0xFFFF; finish OK`. -/
def execCrcInit (s : State) : Host.Outcome State Fault Refusal :=
  .next (s.complete (finishOk [] (s.regs.withCrc crcSeed)))

/-- CRC.UPDATE (R104): `CRC <- crc_step(CRC, b); finish OK`. -/
def execCrcUpdate (b : Byte) (s : State) : Host.Outcome State Fault Refusal :=
  .next (s.complete (finishOk [] (s.regs.withCrc (crcStep s.regs.crc b))))

/-- CRC.READ (R105): `emit(lo8(CRC)); emit(hi8(CRC)); finish OK`. -/
def execCrcRead (s : State) : Host.Outcome State Fault Refusal :=
  .next (s.complete (finishOk [lo8 s.regs.crc, hi8 s.regs.crc] s.regs))

end Sys2Proof.Machine
end

