-- ==== Sys2Proof/Machine/Frame.lean ====
section
/-! DEFINITION. The frame commands: FRM.LOAD, FRM.ENCODE, FRM.DECODE, FRM.READ (41_frame.md section 2),
each a function of the registers, `MAX_PAYLOAD` being a parameter (00_scope.md R4). -/

namespace Sys2Proof.Machine

/-- FRM.LOAD on the registers (R126 to R128). PayloadTooLong comes before InvalidByteValue (R170), and
either clears FRM_VALID and writes no other frame register (R128). -/
def loadFrame (cfg : Config) (id cmd : OperandWord) (pay : List OperandWord) (r : Registers) : Result :=
  if cfg.maxPayload < pay.length then raise .payloadTooLong r.invalidate
  else if allBytesOk (id :: cmd :: pay) then
    finishOk [] (r.withFrame (operandByte id) (operandByte cmd) (pay.map operandByte))
  else raise .invalidByteValue r.invalidate

/-- FRM.ENCODE on the registers (R131): CRC gets the checksum just computed, the last two bytes of the
frame read back low byte first. -/
def emitFrame (r : Registers) : Result :=
  if r.valid then
    let e := encodeFrame r.fid r.fcmd r.fpay
    finishOk e (r.withCrc (receivedChecksum e))
  else raise .noFrame r

/-- FRM.DECODE past its first four checks (R133, R134): CRC gets the computed CRC whatever the outcome;
the payload and the checksum are stored on success only (R135, R136). -/
def acceptFrame (raw : List Byte) (r : Registers) : Result :=
  match decodeFrame r.fid r.fcmd raw with
  | .ok pay chk => finishOk pay ((r.withCrc (computedCrc raw)).withResponse pay chk)
  | .err e => raise e (r.withCrc (computedCrc raw))

/-- FRM.DECODE on the registers (R133), its errors in the order of R170. -/
def checkFrame (cfg : Config) (opds : List OperandWord) (r : Registers) : Result :=
  if r.valid = false then raise .noFrame r
  else if opds.length < 4 then raise .frameTooShort r
  else if cfg.maxPayload < opds.length - 4 then raise .payloadTooLong r
  else if allBytesOk opds then acceptFrame (opds.map operandByte) r
  else raise .invalidByteValue r

/-- FRM.READ on the registers (R139): id, command, length low byte first, payload, checksum low byte
first. It emits FRM_PAY[k] for k below FRM_LEN (DEDUCED, log entry 9). -/
def readFrame (r : Registers) : Result :=
  if r.valid then
    finishOk ([r.fid, r.fcmd, lo8 r.flen, hi8 r.flen] ++ r.fpay.take r.flen.toNat
      ++ [lo8 r.fchk, hi8 r.fchk]) r
  else raise .noFrame r

/-- FRM.LOAD (R126). -/
def execFrmLoad (id cmd : OperandWord) (pay : List OperandWord) (s : State) :
    Host.Outcome State Fault Refusal :=
  .next (s.complete (loadFrame Config.hardware id cmd pay s.regs))

/-- FRM.ENCODE (R131). -/
def execFrmEncode (s : State) : Host.Outcome State Fault Refusal :=
  .next (s.complete (emitFrame s.regs))

/-- FRM.DECODE (R133). -/
def execFrmDecode (raw : List OperandWord) (s : State) : Host.Outcome State Fault Refusal :=
  .next (s.complete (checkFrame Config.hardware raw s.regs))

/-- FRM.READ (R139). -/
def execFrmRead (s : State) : Host.Outcome State Fault Refusal :=
  .next (s.complete (readFrame s.regs))

end Sys2Proof.Machine
end

