-- ==== Sys2Proof/Machine/Status.lean ====
section
/-! DEFINITION. STAT.READ (42_status.md R150). -/

namespace Sys2Proof.Machine

/-- STAT.READ (R150): `emit(STATUS); finish-without-write OK`. -/
def execStatRead (s : State) : Host.Outcome State Fault Refusal :=
  .next (s.complete (finishWithoutWrite [s.regs.status] s.regs))

end Sys2Proof.Machine
end

