-- ==== Sys2Proof/Machine/Dispatch.lean ====
section
/-! DEFINITION. One arm for each command (30_encoding.md R62). -/

namespace Sys2Proof.Machine

def exec (i : Instr) (s : State) : Host.Outcome State Fault Refusal :=
  match i with
  -- 40_crc.md
  | .crcInit => Sys2Proof.Machine.execCrcInit s
  | .crcUpdate b => Sys2Proof.Machine.execCrcUpdate b s
  | .crcRead => Sys2Proof.Machine.execCrcRead s
  -- 41_frame.md
  | .frmLoad id cmd pay => Sys2Proof.Machine.execFrmLoad id cmd pay s
  | .frmEncode => Sys2Proof.Machine.execFrmEncode s
  | .frmDecode raw => Sys2Proof.Machine.execFrmDecode raw s
  | .frmRead => Sys2Proof.Machine.execFrmRead s
  -- 42_status.md
  | .statRead => Sys2Proof.Machine.execStatRead s

end Sys2Proof.Machine
end

