-- ==== Sys2Proof/Machine/Transact.lean ====
section
/-! DEFINITION. The transaction level (30_encoding.md R66; 20_memory.md R45, R50): one whole
transaction, and what a host waits for before the block accepts it. -/

namespace Sys2Proof.Machine

/-- `exec(S, w, opds)` on a transaction (R9): the command's meaning for a legal word, IllegalOp for an
illegal one (R151), and a refusal for a transaction that is not well formed (R66). -/
def transact (t : Transaction) (s : State) : Host.Outcome State Fault Refusal :=
  match decode t with
  | .ok i => exec i s
  | .error .illegalOp => .next (takeIllegalOp s)
  | .error .operandCount => .refused .operandCount

/-- The block once it can accept a command word. After reset it is idle from the first edge with
rst_n = 1 on (R192); a response on its way is drained first (R202). A command that still lacks operand
words never completes by itself (R199), so there is no such block then (DEDUCED, log entry 7). -/
def settle (s : State) : Option State :=
  match s.phase with
  | .held => some { s with phase := .idle, stall := 0 }
  | .idle => some s
  | .taking _ _ => none
  | .sending sent rest => some { s with phase := .idle, responses := s.responses ++ [sent ++ rest] }

/-- The host issues a whole transaction and takes its whole response (R66, R67). -/
def issue (t : Transaction) (s : State) : Host.Outcome State Fault Refusal :=
  match settle s with
  | some u => transact t u
  | none => .refused .commandIncomplete

end Sys2Proof.Machine
end

