-- ==== Sys2Proof/Machine/Port.lean ====
section
/-! DEFINITION. The port level (30_encoding.md R60, R76; 70_reset_and_hazards.md R190 to R192, R199,
R202, R205): the outputs the block drives, and one rising edge of clk. -/

namespace Sys2Proof.Machine

/-- The phase's ready or valid is driven. While a stall is pending the block offers nothing. -/
def State.live (s : State) : Bool := s.stall == 0

/-- cmd_ready: "1 only when no transaction is in progress" (R60), 0 during reset (R190). -/
def cmdReady (s : State) : Bool := s.phase == .idle && s.live

/-- opd_ready: "1 only while the current command still needs operands" (R60). -/
def opdReady (s : State) : Bool :=
  match s.phase with
  | .taking _ _ => s.live
  | _ => false

/-- The response beats still to be sent. -/
def pendingBeats (s : State) : List Byte :=
  match s.phase with
  | .sending _ rest => rest
  | _ => []

/-- rsp_valid: the block offers a response beat (R60). -/
def rspValid (s : State) : Bool := pendingBeats s != [] && s.live

/-- The outputs (R60). While rsp_valid is 0, rsp_data and rsp_last are free values (DESIGN CHOICE,
log entry 6). -/
def portOut (s : State) : PortOut where
  cmdReady := cmdReady s
  opdReady := opdReady s
  rspValid := rspValid s
  rspData  := if rspValid s then (pendingBeats s).headD 0#8 else Config.idleRspData s.draws
  rspLast  := if rspValid s then (pendingBeats s).length == 1 else Config.idleRspLast s.draws

/-- Go to a phase, after a stall that is a free value (R76, R205). -/
def State.enter (s : State) (ph : Phase) : State :=
  { s with phase := ph, stall := Config.portStall s.draws, draws := s.draws + 1 }

/-- rst_n = 0 at a rising edge: every register takes its reset value and the transaction in progress is
abandoned (R190, R191). The host keeps the responses it has (DESIGN CHOICE, log entry 3). -/
def resetEdge (s : State) : State :=
  { s with regs := Registers.reset, phase := .held, stall := 0 }

/-- Steps 3 and 4 of R76: apply the transaction all at once, and send its response. It is applied at the
edge that takes the last word (DEDUCED, log entry 4). -/
def perform (t : Transaction) (s : State) : Host.Outcome State Fault Refusal :=
  match transact t { s with responses := [] } with
  | .next u => .next ({ u with responses := s.responses }.enter (.sending [] u.responses.flatten))
  | .fault f => .fault f
  | .refused r => .refused r

/-- Step 2 of R76: exactly need(w) operand words, then step 3. -/
def gather (w : CommandWord) (taken : List OperandWord) (s : State) :
    Host.Outcome State Fault Refusal :=
  if taken.length < need w then .next (s.enter (.taking w taken)) else perform ⟨w, taken⟩ s

/-- A response beat has transferred; after the last one the block takes a new command word (R76). -/
def transferBeat (sent rest : List Byte) (s : State) : State :=
  match rest with
  | b :: c :: more => s.enter (.sending (sent ++ [b]) (c :: more))
  | _ => { s with responses := s.responses ++ [sent ++ rest] }.enter .idle

/-- One live edge with rst_n = 1: a channel transfers a beat when its valid and its ready are both 1
(R60). -/
def transferEdge (p : PortIn) (s : State) : Host.Outcome State Fault Refusal :=
  match s.phase with
  | .held => .next { s with phase := .idle, stall := 0 }
  | .idle => if p.cmdValid then gather p.cmdData [] s else .next s
  | .taking w taken => if p.opdValid then gather w (taken ++ [p.opdData]) s else .next s
  | .sending sent rest => if p.rspReady then .next (transferBeat sent rest s) else .next s

/-- One rising edge of clk. -/
def portEdge (p : PortIn) (s : State) : Host.Outcome State Fault Refusal :=
  if p.rstN = false then .next (resetEdge s)
  else if s.live then transferEdge p s
  else .next { s with stall := s.stall - 1 }

end Sys2Proof.Machine
end

