-- ==== Sys2Proof/Machine/Step.lean ====
section
/-! DEFINITION. One step: the next input of the host. The block has no program counter and fetches
nothing: "The host issues transactions one after another" (10_state.md R21). -/

namespace Sys2Proof.Machine

/-- The machine takes the host's next input. With none pending it waits and keeps all its state
(60_exceptions.md R178). -/
def step (s : State) : Host.Outcome State Fault Refusal :=
  match s.inbox with
  | [] => .next s
  | .transaction t :: rest => issue t { s with inbox := rest }
  | .clockEdge p :: rest => portEdge p { s with inbox := rest }

/-- The state with an idle block and the instruction of the given bits as the host's next input. -/
def State.withFetchWord (s : State) (nbits w : Nat) : State :=
  { s with phase := .idle, stall := 0, inbox := .transaction (tableTransaction nbits w) :: s.inbox }

end Sys2Proof.Machine
end

