-- ==== Sys2Proof/Machine/Assembler.lean ====
section
/-! DEFINITION. The assembler of 30_encoding.md R74 and R75: from a line of text to transactions. It
belongs to the host, not to the block: no step calls it. -/

namespace Sys2Proof.Machine

/-- A line of assembly: the nine forms of R74 and the two pseudo-instructions of R75. -/
inductive AsmLine where
  | crcInit
  | crcUpdate (b : Int)
  | crcRead
  | frmLoad (id cmd : Int) (pay : List Int)
  | frmEncode
  | frmDecode (raw : List Int)
  | frmRead
  | statRead
  /-- `.cmd W[, u0, ...]`: an arbitrary transaction. -/
  | cmd (w : Int) (opds : List Int)
  /-- `crc.bytes b0, ..., b(k-1)`. -/
  | crcBytes (bs : List Int)
  /-- `crc.compute b0, ..., b(k-1)`. -/
  | crcCompute (bs : List Int)
  deriving DecidableEq, Repr

/-- Why a line gives no transactions. -/
inductive AsmError where
  /-- A literal does not fit its field (R74), or the host cannot convert it (R63, R161). -/
  | literalOutOfRange
  /-- The line is none of the forms of R74 and R75. -/
  | notALine
  deriving DecidableEq, Repr

/-! ## From a line to transactions -/

/-- The literal fits an unsigned field of `n` bits. -/
def fieldOfInt (n : Nat) : Int → Option (BitVec n)
  | .ofNat k => if k < 2 ^ n then some (BitVec.ofNat n k) else none
  | .negSucc _ => none

/-- `crc.update b`, 0 <= b <= 255. -/
def updateTransaction (b : Int) : Option Transaction :=
  (fieldOfInt 8 b).map fun v => encode (.crcUpdate v)

/-- `frm.load` with its values as operand words; the count `n` must fit IMM16. -/
def loadTransaction : List OperandWord → Option Transaction
  | [] => none
  | [_] => none
  | id :: cmd :: pay =>
    if pay.length ≤ 65535 then some (encode (.frmLoad id cmd pay)) else none

/-- `frm.decode` with its values as operand words; the count `L` must fit IMM16. -/
def decodeTransaction (raw : List OperandWord) : Option Transaction :=
  if raw.length ≤ 65535 then some (encode (.frmDecode raw)) else none

/-- `.cmd W, u0, ...`: the words as written. -/
def rawTransaction (w : Int) (opds : List Int) : Option Transaction :=
  match fieldOfInt 32 w, opds.mapM (fieldOfInt 16) with
  | some v, some us => some ⟨v, us⟩
  | _, _ => none

/-- The transactions of a line, `none` when a literal does not fit (R74, R75). Range checking of frame
values is the block's job, so any value the host can convert is passed on (R63). -/
def assembleTransactions : AsmLine → Option (List Transaction)
  | .crcInit => some [encode .crcInit]
  | .crcUpdate b => (updateTransaction b).map fun t => [t]
  | .crcRead => some [encode .crcRead]
  | .frmLoad id cmd pay =>
    (((id :: cmd :: pay).mapM operandOfInt).bind loadTransaction).map fun t => [t]
  | .frmEncode => some [encode .frmEncode]
  | .frmDecode raw => ((raw.mapM operandOfInt).bind decodeTransaction).map fun t => [t]
  | .frmRead => some [encode .frmRead]
  | .statRead => some [encode .statRead]
  | .cmd w opds => (rawTransaction w opds).map fun t => [t]
  | .crcBytes bs => bs.mapM updateTransaction
  | .crcCompute bs =>
    (bs.mapM updateTransaction).map fun ts => encode .crcInit :: (ts ++ [encode .crcRead])

/-! ## From text to a line -/

/-- A blank separates a mnemonic from its operands and may stand around a literal (DESIGN
CHOICE, log entry 8). -/
def isBlank (c : Char) : Bool := c == ' ' || c == '\t'

/-- The text without the blanks at its ends. -/
def trimBlanks (cs : List Char) : List Char :=
  ((cs.dropWhile isBlank).reverse.dropWhile isBlank).reverse

/-- The value of a digit, upper or lower case above 9. -/
def digitValue (c : Char) : Option Nat :=
  if '0' ≤ c ∧ c ≤ '9' then some (c.toNat - 48)
  else if 'a' ≤ c ∧ c ≤ 'f' then some (c.toNat - 87)
  else if 'A' ≤ c ∧ c ≤ 'F' then some (c.toNat - 55)
  else none

/-- Digits of the given base after the value read so far. -/
def parseDigits (base : Nat) : Nat → List Char → Option Nat
  | v, [] => some v
  | v, c :: cs =>
    match digitValue c with
    | some d => if d < base then parseDigits base (base * v + d) cs else none
    | none => none

/-- At least one digit of the given base. -/
def parseNumber (base : Nat) : List Char → Option Int
  | [] => none
  | c :: cs => (parseDigits base 0 (c :: cs)).map Int.ofNat

/-- "An integer literal is decimal, `0x` hexadecimal, or negative decimal" (R74). -/
def parseLiteral : List Char → Option Int
  | '0' :: 'x' :: cs => parseNumber 16 cs
  | '-' :: cs => (parseNumber 10 cs).map fun v => -v
  | cs => parseNumber 10 cs

/-- "operands are separated by commas" (R74). -/
def parseOperands (cs : List Char) : Option (List Int) :=
  match trimBlanks cs with
  | [] => some []
  | c :: more => ((c :: more).splitOn ',').mapM fun x => parseLiteral (trimBlanks x)

/-- A form that has no operands. -/
def bareLine (l : AsmLine) : List Int → Option AsmLine
  | [] => some l
  | _ :: _ => none

/-- `crc.update b`. -/
def updateLine : List Int → Option AsmLine
  | [b] => some (.crcUpdate b)
  | _ => none

/-- `frm.load id, cmd[, p0, ..., p(n-1)]`. -/
def loadLine : List Int → Option AsmLine
  | id :: cmd :: pay => some (.frmLoad id cmd pay)
  | _ => none

/-- `.cmd W[, u0, ...]`. -/
def cmdLine : List Int → Option AsmLine
  | w :: opds => some (.cmd w opds)
  | _ => none

/-- The line with the given mnemonic and operands: "Mnemonics are written in lower case" (R74). R75 does not
say whether `crc.bytes` and `crc.compute` may stand with no values (k = 0): they may here, `crc.bytes` for
no transaction and `crc.compute` for crc.init then crc.read (DESIGN CHOICE, log entry 8). -/
def lineOf (mnemonic : List Char) (vs : List Int) : Option AsmLine :=
  if mnemonic = "crc.init".toList then bareLine .crcInit vs
  else if mnemonic = "crc.update".toList then updateLine vs
  else if mnemonic = "crc.read".toList then bareLine .crcRead vs
  else if mnemonic = "frm.load".toList then loadLine vs
  else if mnemonic = "frm.encode".toList then bareLine .frmEncode vs
  else if mnemonic = "frm.decode".toList then some (.frmDecode vs)
  else if mnemonic = "frm.read".toList then bareLine .frmRead vs
  else if mnemonic = "stat.read".toList then bareLine .statRead vs
  else if mnemonic = ".cmd".toList then cmdLine vs
  else if mnemonic = "crc.bytes".toList then some (.crcBytes vs)
  else if mnemonic = "crc.compute".toList then some (.crcCompute vs)
  else none

/-- A line of text. -/
def parseLine (text : List Char) : Option AsmLine :=
  let cs := trimBlanks text
  match parseOperands (cs.dropWhile fun c => !isBlank c) with
  | some vs => lineOf (cs.takeWhile fun c => !isBlank c) vs
  | none => none

/-- The transactions of a line of text, or why there are none. -/
def assemble (text : List Char) : Except AsmError (List Transaction) :=
  match parseLine text with
  | none => .error .notALine
  | some l =>
    match assembleTransactions l with
    | none => .error .literalOutOfRange
    | some ts => .ok ts

end Sys2Proof.Machine
end

