-- ==== Sys2Proof/Safety.lean ====
section
/-! DEFINITION. The words the statements are written in: the invariants of the registers, the ports and
the responses, the transaction-level view of a state, runs, and a patient host. -/

namespace Sys2Proof.Machine

/-! ## Invariants -/

/-- The frame register is consistent: FRM_PAY has FRM_LEN bytes (10_state.md R28), at most MAX_PAYLOAD
(R27), and a valid frame's checksum is the CRC of its body (R30). -/
structure Registers.FrameInv (cfg : Config) (r : Registers) : Prop where
  payLength : r.flen.toNat = r.fpay.length
  atMost    : r.flen.toNat ≤ cfg.maxPayload
  checksum  : r.valid = true → r.fchk = crc16 (r.fid :: r.fcmd :: r.fpay)

/-- The registers hold legal values (R23, R27, R28, R30, R35). -/
structure Registers.Inv (cfg : Config) (r : Registers) : Prop where
  status : r.status.toNat ≤ 8
  frame  : r.FrameInv cfg

/-- A response is a status code and data, the data empty unless the code is 0x00 (30_encoding.md R67),
and the code is one of the nine (60_exceptions.md R160). -/
def LegalResponse (rsp : List Byte) : Prop :=
  ∃ code data, rsp = code :: data ∧ code.toNat ≤ 8 ∧ (code ≠ 0x00#8 → data = [])

/-- What is in flight on the ports is possible: operand words are awaited only while some are missing
(R65, R76), and a response is being sent only while beats are left (R76). -/
def Phase.Legal : Phase → Prop
  | .held => True
  | .idle => True
  | .taking w taken => taken.length < need w
  | .sending sent rest => rest ≠ [] ∧ LegalResponse (sent ++ rest)

/-- The invariant of the machine. -/
structure State.Inv (s : State) : Prop where
  regs      : s.regs.Inv Config.hardware
  phase     : s.phase.Legal
  responses : ∀ rsp ∈ s.responses, LegalResponse rsp

/-! ## The transaction level -/

/-- The responses of the transactions the block has carried out, the one on its way among them. -/
def State.allResponses (s : State) : List (List Byte) :=
  match s.phase with
  | .sending sent rest => s.responses ++ [sent ++ rest]
  | _ => s.responses

/-- What the transaction level says of a state: its registers and the list of responses (R204). -/
def State.view (s : State) : Registers × List (List Byte) := (s.regs, s.allResponses)

/-- The state between transactions with the same view. -/
def State.atRest (s : State) : State :=
  { s with phase := .idle, stall := 0, responses := s.allResponses }

/-- The state with one whole transaction as the host's next input. -/
def State.issuing (s : State) (w : CommandWord) (opds : List OperandWord) : State :=
  { s with inbox := .transaction ⟨w, opds⟩ :: s.inbox }

/-- The registers and the response of a command, recorded: everything else is as it was. -/
def State.after (s : State) (r : Registers) (rsp : List Byte) : State :=
  { s with regs := r, responses := s.responses ++ [rsp] }

/-! ## Runs -/

/-- `k` steps. -/
def State.run (s : State) : Nat → Host.Outcome State Fault Refusal
  | 0 => .next s
  | k + 1 =>
    match step s with
    | .next t => t.run k
    | .fault f => .fault f
    | .refused r => .refused r

/-- The state with these transactions as the host's next inputs. -/
def State.given (s : State) (ts : List Transaction) : State :=
  { s with inbox := ts.map .transaction ++ s.inbox }

/-- "A run is a finite sequence of well-formed transactions ... applied with exec, in order, to the
reset state" (R204): the states that runs lead to. -/
inductive Reachable : State → Prop where
  | reset : Reachable State.reset
  | issue {s t : State} {w : CommandWord} {opds : List OperandWord} :
      Reachable s → opds.length = need w → step (s.issuing w opds) = .next t → Reachable t

/-- Commands carried out one after another. -/
def commandsRun : List Instr → State → Host.Outcome State Fault Refusal
  | [], s => .next s
  | i :: is, s =>
    match exec i s with
    | .next t => commandsRun is t
    | .fault f => .fault f
    | .refused r => .refused r

/-- The byte a CRC.UPDATE folds in. -/
def updatedByte : Instr → Option Byte
  | .crcUpdate b => some b
  | .crcInit => none
  | .crcRead => none
  | .frmLoad _ _ _ => none
  | .frmEncode => none
  | .frmDecode _ => none
  | .frmRead => none
  | .statRead => none

/-- The commands that fold a byte into CRC or do not disturb it (70_reset_and_hazards.md R196). -/
def keepsStream : Instr → Bool
  | .crcInit => false
  | .crcUpdate _ => true
  | .crcRead => true
  | .frmLoad _ _ _ => true
  | .frmEncode => false
  | .frmDecode _ => false
  | .frmRead => true
  | .statRead => true

/-- A FRM.LOAD. -/
def isLoad : Instr → Bool
  | .frmLoad _ _ _ => true
  | .crcInit => false
  | .crcUpdate _ => false
  | .crcRead => false
  | .frmEncode => false
  | .frmDecode _ => false
  | .frmRead => false
  | .statRead => false

/-- A FRM.DECODE. -/
def isDecode : Instr → Bool
  | .frmDecode _ => true
  | .crcInit => false
  | .crcUpdate _ => false
  | .crcRead => false
  | .frmLoad _ _ _ => false
  | .frmEncode => false
  | .frmRead => false
  | .statRead => false

/-- `ReachedBy allowed s t`: commands lead from `s` to `t`, each of them allowed, given the state it
leaves. -/
inductive ReachedBy (allowed : Instr → State → Prop) : State → State → Prop where
  | refl (s : State) : ReachedBy allowed s s
  | step {s t u : State} {i : Instr} :
      ReachedBy allowed s t → exec i t = .next u → allowed i u → ReachedBy allowed s u

/-- The command word raises IllegalOp: STATUS and the response are 0x08, and nothing else changes
(42_status.md R151). -/
def RaisesIllegalOp (w : CommandWord) : Prop :=
  ∀ s : State, s.phase = .idle →
    step (s.issuing w []) = .next (s.after { s.regs with status := 0x08#8 } [0x08#8])

/-- Two states that a host cannot tell apart while FRM_VALID is 0: they are equal, or FRM_VALID is 0 in
both and they differ in the frame registers only (10_state.md R35). -/
def FrameBlind (s t : State) : Prop :=
  s = t ∨ (s.regs.valid = false ∧
    ∃ id cmd len pay chk,
      t = { s with regs := { s.regs with fid := id, fcmd := cmd, flen := len, fpay := pay, fchk := chk } })

/-- Two outcomes of the same kind, with related next states. -/
def SameOutcome (related : State → State → Prop) :
    Host.Outcome State Fault Refusal → Host.Outcome State Fault Refusal → Prop
  | .next s, .next t => related s t
  | .fault f, .fault g => f = g
  | .refused q, .refused r => q = r
  | _, _ => False

/-! ## The ports -/

/-- The block takes all the operand words of `w` before anything else happens (30_encoding.md R65): an edge
short of the last one writes no register and completes no response, it accepts the word offered at
most. -/
def TakesOperandsFirst (w : CommandWord) : Prop :=
  (∀ (s : State) (p : PortIn), s.phase = .idle → p.rstN = true → p.cmdValid = true → p.cmdData = w →
    0 < need w →
    ∃ t, portEdge p s = .next t ∧ t.regs = s.regs ∧ t.responses = s.responses ∧
      (t.phase = .idle ∨ t.phase = .taking w [])) ∧
  (∀ (s : State) (p : PortIn) (taken : List OperandWord), s.phase = .taking w taken →
    p.rstN = true → taken.length + 1 < need w →
    ∃ t, portEdge p s = .next t ∧ t.regs = s.regs ∧ t.responses = s.responses ∧
      (t.phase = .taking w taken ∨ t.phase = .taking w (taken ++ [p.opdData])))

/-- A host that offers the transaction's next word and always takes a beat: the inputs of the edge that
follows state `s`. -/
def eagerEdge (t : Transaction) (s : State) : PortIn where
  rstN     := true
  cmdValid := true
  cmdData  := t.word
  opdValid := true
  opdData  :=
    match s.phase with
    | .taking _ taken => t.operands.getD taken.length 0#16
    | _ => 0#16
  rspReady := true

/-- `k` edges of that host. -/
def eagerRun (t : Transaction) : Nat → State → Host.Outcome State Fault Refusal
  | 0, s => .next s
  | k + 1, s =>
    match portEdge (eagerEdge t s) s with
    | .next u => eagerRun t k u
    | .fault f => .fault f
    | .refused r => .refused r

end Sys2Proof.Machine
end

