-- ==== Sys2Proof/Certificates/Slice0/Obligations.lean ====
section
/-! DEFINITION. The statements for the provers. Each docstring names the rules of spec/ it states. -/

open Sys2Proof Sys2Proof.Machine

/-! ## Encoding -/

/-- Decoding the encoding of a well-formed command gives it back (30_encoding.md sections 2 to 6). -/
def Obligations.DecodeOfEncodeGivesTheCommand : Prop :=
  ∀ i : Instr, i.wellFormed = true → decode (encode i) = .ok i

/-- Each transaction has one meaning: what decodes to a command is that command's encoding. -/
def Obligations.EncodeOfDecodeGivesTheTransaction : Prop :=
  ∀ (t : Transaction) (i : Instr), decode t = .ok i → encode i = t ∧ i.wellFormed = true

/-- The command words of the table of R74, with operand words of P2, decode to their commands. -/
def Obligations.SpecCommandWordsDecode : Prop :=
  decode ⟨0x01000000#32, []⟩ = .ok .crcInit ∧
  decode ⟨0x0200001E#32, []⟩ = .ok (.crcUpdate 0x1E#8) ∧
  decode ⟨0x03000000#32, []⟩ = .ok .crcRead ∧
  decode ⟨0x10000001#32, [0x001E#16, 0x0021#16, 0x0003#16]⟩ =
    .ok (.frmLoad 0x001E#16 0x0021#16 [0x0003#16]) ∧
  decode ⟨0x11000000#32, []⟩ = .ok .frmEncode ∧
  decode ⟨0x12000003#32, [0x001E#16, 0x0021#16, 0x0003#16]⟩ =
    .ok (.frmDecode [0x001E#16, 0x0021#16, 0x0003#16]) ∧
  decode ⟨0x13000000#32, []⟩ = .ok .frmRead ∧
  decode ⟨0x20000000#32, []⟩ = .ok .statRead

/-- R68: the three conditions of a legal word, and every other word raises IllegalOp. -/
def Obligations.LegalWordsMeetTheThreeConditions : Prop :=
  (∀ w : CommandWord, legalWord w = true ↔
    w.extractLsb' 16 8 = 0x00#8 ∧
    ((w.extractLsb' 24 8 ∈ [0x01#8, 0x03#8, 0x11#8, 0x13#8, 0x20#8] ∧ w.extractLsb' 0 16 = 0x0000#16) ∨
     (w.extractLsb' 24 8 = 0x02#8 ∧ w.extractLsb' 8 8 = 0x00#8) ∨
     w.extractLsb' 24 8 ∈ [0x10#8, 0x12#8])) ∧
  (∀ w : CommandWord, legalWord w = false → RaisesIllegalOp w)

/-- The rows of opcode_table.json: a word is legal exactly when it belongs to a row, it belongs to one
row at most, and the row is the decoded command's. -/
def Obligations.OpcodeTableRowsAreTheLegalWords : Prop :=
  (∀ w : CommandWord, legalWord w = true ↔ ∃ row ∈ opcodeRows, row.selects w = true) ∧
  (∀ (w : CommandWord) (row : OpcodeRow) (c : Command), row ∈ opcodeRows → row.selects w = true →
    decodeCommand w = some c → row.mnemonic = c.mnemonic) ∧
  (∀ (w : CommandWord) (p q : OpcodeRow), p ∈ opcodeRows → q ∈ opcodeRows →
    p.selects w = true → q.selects w = true → p = q)

/-- R65: the operand counts, and that a legal command takes all its operands, in the order they cross the
channel, before it does anything else. -/
def Obligations.CommandWordFixesTheOperandCount : Prop :=
  (∀ w : CommandWord, legalWord w = true → w.extractLsb' 24 8 = 0x10#8 →
    need w = (w.extractLsb' 0 16).toNat + 2) ∧
  (∀ w : CommandWord, legalWord w = true → w.extractLsb' 24 8 = 0x12#8 →
    need w = (w.extractLsb' 0 16).toNat) ∧
  (∀ w : CommandWord, w.extractLsb' 24 8 ≠ 0x10#8 → w.extractLsb' 24 8 ≠ 0x12#8 → need w = 0) ∧
  (∀ w : CommandWord, legalWord w = false → need w = 0) ∧
  (∀ w : CommandWord, legalWord w = true → TakesOperandsFirst w)

/-- R63 and R64: the host's conversion of integers, and which operand words carry a byte. -/
def Obligations.OperandWordsOfIntegersAndBytes : Prop :=
  (∀ v : Int, -32768 ≤ v → v ≤ 65535 →
    ∃ u, operandOfInt v = some u ∧ (u.toNat : Int) = v % 65536 ∧
      (byteOk u = true ↔ 0 ≤ v ∧ v ≤ 255)) ∧
  (∀ v : Int, v < -32768 ∨ 65535 < v → operandOfInt v = none) ∧
  (∀ u : OperandWord, byteOk u = true ↔ u.extractLsb' 8 8 = 0x00#8) ∧
  (∀ u : OperandWord, byteOk u = true → operandByte u = u.extractLsb' 0 8 ∧ (operandByte u).toNat = u.toNat)

/-! ## The CRC -/

/-- R102: the table form of crc_step. -/
def Obligations.CrcStepIsTheTableForm : Prop :=
  (∀ (c : Half) (b : Byte), crcStep c b =
    (c >>> 8) ^^^ crcStep 0x0000#16 (((c ^^^ b.setWidth 16) &&& 0x00FF#16).setWidth 8)) ∧
  crcStep 0x0000#16 0x01#8 = 0xC0C1#16 ∧ crcStep 0x0000#16 0x80#8 = 0xA001#16

/-- R106 (and R196): a stream of CRC.UPDATE after CRC.INIT leaves crc16 of its bytes, whatever commands
that do not write CRC stand between; and crc16 of a concatenation continues the fold. -/
def Obligations.StreamedCrcIsCrc16OfTheBytes : Prop :=
  (∀ (s : State) (is : List Instr), (∀ i ∈ is, keepsStream i = true) →
    ∃ t, commandsRun (.crcInit :: is) s = .next t ∧
      t.regs.crc = crc16 (is.filterMap updatedByte)) ∧
  (∀ a b : List Byte, crc16 (a ++ b) = b.foldl crcStep (crc16 a))

/-- R107: the residue, of a sequence followed by its CRC and of a whole encoded frame. -/
def Obligations.CrcResidueIsZero : Prop :=
  (∀ s : List Byte,
    crc16 (s ++ [(crc16 s).extractLsb' 0 8, (crc16 s).extractLsb' 8 8]) = 0x0000#16) ∧
  (∀ (id cmd : Byte) (pay : List Byte), crc16 (encodeFrame id cmd pay) = 0x0000#16)

/-- R108: the published check value of CRC-16/MODBUS. -/
def Obligations.CrcCheckValueIs4B37 : Prop :=
  crc16 [0x31#8, 0x32#8, 0x33#8, 0x34#8, 0x35#8, 0x36#8, 0x37#8, 0x38#8, 0x39#8] = 0x4B37#16

/-- R109, first sentence, and its claim about frames: a single wrong byte changes the CRC, and never
passes the checksum comparison. -/
def Obligations.SingleWrongByteIsDetected : Prop :=
  (∀ (s : List Byte) (k : Nat) (b : Byte), k < s.length → b ≠ s.getD k 0#8 →
    crc16 (s.set k b) ≠ crc16 s) ∧
  (∀ (id cmd : Byte) (pay : List Byte) (k : Nat) (b : Byte),
    k < (encodeFrame id cmd pay).length → b ≠ (encodeFrame id cmd pay).getD k 0#8 →
    computedCrc ((encodeFrame id cmd pay).set k b) ≠ receivedChecksum ((encodeFrame id cmd pay).set k b))

/-! ## The codec -/

/-- R122: the round trip of the codec functions. -/
def Obligations.DecodeOfEncodedFrameGivesThePayload : Prop :=
  ∀ (id cmd : Byte) (pay : List Byte),
    decodeFrame id cmd (encodeFrame id cmd pay) = .ok pay (crc16 ([id, cmd] ++ pay))

/-- R123: one byte of an encoded frame replaced gives ChecksumMismatch, at any index. -/
def Obligations.OneWrongByteGivesChecksumMismatch : Prop :=
  ∀ (id cmd : Byte) (pay : List Byte) (k : Nat) (b : Byte),
    k < (encodeFrame id cmd pay).length → b ≠ (encodeFrame id cmd pay).getD k 0#8 →
    decodeFrame id cmd ((encodeFrame id cmd pay).set k b) = .err .checksumMismatch

/-! ## The CRC commands: result, completion and frame in one -/

/-- R103. -/
def Obligations.CrcInitSetsTheSeed : Prop :=
  (∀ s : State, exec .crcInit s =
    .next (s.after { s.regs with crc := 0xFFFF#16, status := 0x00#8 } [0x00#8])) ∧
  encode .crcInit = ⟨0x01000000#32, []⟩ ∧ decode ⟨0x01000000#32, []⟩ = .ok .crcInit ∧
  need 0x01000000#32 = 0 ∧
  (∀ w : CommandWord, w.extractLsb' 24 8 = 0x01#8 → w ≠ 0x01000000#32 → RaisesIllegalOp w)

/-- R104. -/
def Obligations.CrcUpdateFoldsOneByte : Prop :=
  (∀ (s : State) (b : Byte), exec (.crcUpdate b) s =
    .next (s.after { s.regs with crc := crcStep s.regs.crc b, status := 0x00#8 } [0x00#8])) ∧
  (∀ b : Byte, encode (.crcUpdate b) = ⟨0x02000000#32 ||| b.setWidth 32, []⟩ ∧
    decode ⟨0x02000000#32 ||| b.setWidth 32, []⟩ = .ok (.crcUpdate b) ∧
    need (0x02000000#32 ||| b.setWidth 32) = 0) ∧
  (∀ w : CommandWord, w.extractLsb' 24 8 = 0x02#8 →
    w.extractLsb' 8 8 ≠ 0x00#8 ∨ w.extractLsb' 16 8 ≠ 0x00#8 → RaisesIllegalOp w) ∧
  crcStep 0x0000#16 0x00#8 = 0x0000#16 ∧ crcStep 0xFFFF#16 0xFF#8 = 0x00FF#16 ∧
  crcStep (crcStep 0xFFFF#16 0xFF#8) 0xFF#8 = 0x0000#16 ∧ crcStep 0xFFFF#16 0x01#8 = 0x807E#16

/-- R105. -/
def Obligations.CrcReadReturnsLowByteFirst : Prop :=
  (∀ s : State, exec .crcRead s =
    .next (s.after { s.regs with status := 0x00#8 }
      [0x00#8, s.regs.crc.extractLsb' 0 8, s.regs.crc.extractLsb' 8 8])) ∧
  encode .crcRead = ⟨0x03000000#32, []⟩ ∧ decode ⟨0x03000000#32, []⟩ = .ok .crcRead ∧
  need 0x03000000#32 = 0 ∧
  (∀ w : CommandWord, w.extractLsb' 24 8 = 0x03#8 → w ≠ 0x03000000#32 → RaisesIllegalOp w)

/-! ## The frame commands -/

/-- R126 and R170 for FRM.LOAD: PayloadTooLong, then InvalidByteValue, else the frame is stored. -/
def Obligations.FrmLoadStoresOrRejectsTheFrame : Prop :=
  (∀ (s : State) (id cmd : OperandWord) (pay : List OperandWord), pay.length ≤ 255 →
    (∀ u ∈ id :: cmd :: pay, u.extractLsb' 8 8 = 0x00#8) →
    exec (.frmLoad id cmd pay) s =
      .next (s.after
        { s.regs with
          fid := id.extractLsb' 0 8, fcmd := cmd.extractLsb' 0 8,
          fpay := pay.map fun u => u.extractLsb' 0 8, flen := BitVec.ofNat 16 pay.length,
          fchk := crc16 ((id :: cmd :: pay).map fun u => u.extractLsb' 0 8),
          valid := true, status := 0x00#8 } [0x00#8])) ∧
  (∀ (s : State) (id cmd : OperandWord) (pay : List OperandWord), 255 < pay.length →
    exec (.frmLoad id cmd pay) s =
      .next (s.after { s.regs with valid := false, status := 0x06#8 } [0x06#8])) ∧
  (∀ (s : State) (id cmd : OperandWord) (pay : List OperandWord), pay.length ≤ 255 →
    (∃ u ∈ id :: cmd :: pay, u.extractLsb' 8 8 ≠ 0x00#8) →
    exec (.frmLoad id cmd pay) s =
      .next (s.after { s.regs with valid := false, status := 0x01#8 } [0x01#8])) ∧
  (∀ (id cmd : OperandWord) (pay : List OperandWord), pay.length ≤ 65535 →
    encode (.frmLoad id cmd pay) =
      ⟨0x10000000#32 ||| BitVec.ofNat 32 pay.length, id :: cmd :: pay⟩ ∧
    need (0x10000000#32 ||| BitVec.ofNat 32 pay.length) = pay.length + 2 ∧
    TakesOperandsFirst (0x10000000#32 ||| BitVec.ofNat 32 pay.length)) ∧
  crc16 [0x1E#8, 0x21#8, 0x03#8] = 0x9749#16

/-- R127, for every capacity: right after a successful load the frame register is consistent, and CRC
is untouched. -/
def Obligations.SuccessfulLoadMakesTheFrameConsistent : Prop :=
  ∀ (cfg : Config) (id cmd : OperandWord) (pay : List OperandWord) (r : Registers),
    (loadFrame cfg id cmd pay r).rsp = [0x00#8] →
    (loadFrame cfg id cmd pay r).regs.FrameInv cfg ∧
    (loadFrame cfg id cmd pay r).regs.valid = true ∧
    (loadFrame cfg id cmd pay r).regs.crc = r.crc

/-- R128 and R198: a load that does not end with OK writes FRM_VALID and STATUS and nothing else; the frame
it leaves cannot be encoded, decoded into or read, though its registers hold their values. -/
def Obligations.FailedLoadOnlyClearsValid : Prop :=
  ∀ (s t : State) (id cmd : OperandWord) (pay : List OperandWord),
    exec (.frmLoad id cmd pay) s = .next t → t.regs.status ≠ 0x00#8 →
    (t.regs.status = 0x06#8 ∨ t.regs.status = 0x01#8) ∧
    t = s.after { s.regs with valid := false, status := t.regs.status } [t.regs.status] ∧
    exec .frmEncode t = .next (t.after { t.regs with status := 0x07#8 } [0x07#8]) ∧
    (∀ opds : List OperandWord,
      exec (.frmDecode opds) t = .next (t.after { t.regs with status := 0x07#8 } [0x07#8])) ∧
    exec .frmRead t = .next (t.after { t.regs with status := 0x07#8 } [0x07#8])

/-- R129: after a failed load every FRM.ENCODE raises NoFrame and emits no frame byte, until a load
succeeds. -/
def Obligations.NoTransmissionAfterAFailedLoad : Prop :=
  ∀ (s t u : State) (id cmd : OperandWord) (pay : List OperandWord),
    exec (.frmLoad id cmd pay) s = .next t → t.regs.status ≠ 0x00#8 →
    ReachedBy (fun i v => isLoad i = true → v.regs.status ≠ 0x00#8) t u →
    exec .frmEncode u = .next (u.after { u.regs with status := 0x07#8 } [0x07#8])

/-- R130: the length of a successful FRM.ENCODE's response. -/
def Obligations.EncodeResponseLengthIsFiveMoreThanThePayload : Prop :=
  ∀ s : State, s.regs.valid = true → s.regs.FrameInv Config.hardware →
    ∃ t rsp, exec .frmEncode s = .next t ∧ t.responses = s.responses ++ [rsp] ∧
      rsp.length = 1 + 2 + s.regs.flen.toNat + 2

/-- R131. -/
def Obligations.FrmEncodeEmitsTheWireBytes : Prop :=
  (∀ s : State, s.regs.valid = true →
    let body := s.regs.fid :: s.regs.fcmd :: s.regs.fpay
    exec .frmEncode s =
      .next (s.after { s.regs with crc := crc16 body, status := 0x00#8 }
        (0x00#8 :: (body ++ [(crc16 body).extractLsb' 0 8, (crc16 body).extractLsb' 8 8])))) ∧
  (∀ s : State, s.regs.valid = false →
    exec .frmEncode s = .next (s.after { s.regs with status := 0x07#8 } [0x07#8])) ∧
  (∀ s : State, s.regs.valid = true → s.regs.FrameInv Config.hardware →
    ∃ t, exec .frmEncode s = .next t ∧ t.regs.crc = s.regs.fchk) ∧
  encode .frmEncode = ⟨0x11000000#32, []⟩ ∧ decode ⟨0x11000000#32, []⟩ = .ok .frmEncode ∧
  need 0x11000000#32 = 0 ∧
  (∀ w : CommandWord, w.extractLsb' 24 8 = 0x11#8 → w ≠ 0x11000000#32 → RaisesIllegalOp w) ∧
  encodeFrame 0xFF#8 0xFF#8 [] = [0xFF#8, 0xFF#8, 0x00#8, 0x00#8] ∧
  encodeFrame 0x1E#8 0x21#8 [0x03#8] = [0x1E#8, 0x21#8, 0x03#8, 0x49#8, 0x97#8]

/-- R132: FRM.ENCODE writes only CRC and STATUS; two of them with no command between that writes the
frame emit identical bytes, and a failed decode leaves the frame register unchanged. -/
def Obligations.EncodeIsRepeatableUntilTheFrameIsWritten : Prop :=
  (∀ s t : State, exec .frmEncode s = .next t →
    t.regs = { s.regs with crc := t.regs.crc, status := t.regs.status }) ∧
  (∀ s t u v : State, exec .frmEncode s = .next t →
    ReachedBy (fun i x => isLoad i = false ∧ (isDecode i = true → x.regs.status ≠ 0x00#8)) t u →
    exec .frmEncode u = .next v →
    ∃ rsp, t.responses = s.responses ++ [rsp] ∧ v.responses = u.responses ++ [rsp])

/-- R133 and R136, with R170's order: the outcome of FRM.DECODE in every case. -/
def Obligations.FrmDecodeChecksInOrderAndStoresOnSuccess : Prop :=
  (∀ (s : State) (opds : List OperandWord), s.regs.valid = false →
    exec (.frmDecode opds) s = .next (s.after { s.regs with status := 0x07#8 } [0x07#8])) ∧
  (∀ (s : State) (opds : List OperandWord), s.regs.valid = true → opds.length < 4 →
    exec (.frmDecode opds) s = .next (s.after { s.regs with status := 0x05#8 } [0x05#8])) ∧
  (∀ (s : State) (opds : List OperandWord), s.regs.valid = true → 255 < opds.length - 4 →
    exec (.frmDecode opds) s = .next (s.after { s.regs with status := 0x06#8 } [0x06#8])) ∧
  (∀ (s : State) (opds : List OperandWord), s.regs.valid = true → 4 ≤ opds.length →
    opds.length - 4 ≤ 255 → (∃ u ∈ opds, u.extractLsb' 8 8 ≠ 0x00#8) →
    exec (.frmDecode opds) s = .next (s.after { s.regs with status := 0x01#8 } [0x01#8])) ∧
  (∀ (s : State) (opds : List OperandWord), s.regs.valid = true → 4 ≤ opds.length →
    opds.length - 4 ≤ 255 → (∀ u ∈ opds, u.extractLsb' 8 8 = 0x00#8) →
    let raw : List Byte := opds.map fun u => u.extractLsb' 0 8
    let c : Half := crc16 (raw.take (opds.length - 2))
    let r : Half := raw.getD (opds.length - 1) 0#8 ++ raw.getD (opds.length - 2) 0#8
    let pay : List Byte := (raw.drop 2).take (opds.length - 4)
    (c ≠ r →
      exec (.frmDecode opds) s = .next (s.after { s.regs with crc := c, status := 0x02#8 } [0x02#8])) ∧
    (c = r → raw.getD 0 0#8 ≠ s.regs.fid →
      exec (.frmDecode opds) s = .next (s.after { s.regs with crc := c, status := 0x03#8 } [0x03#8])) ∧
    (c = r → raw.getD 0 0#8 = s.regs.fid → raw.getD 1 0#8 ≠ s.regs.fcmd →
      exec (.frmDecode opds) s = .next (s.after { s.regs with crc := c, status := 0x04#8 } [0x04#8])) ∧
    (c = r → raw.getD 0 0#8 = s.regs.fid → raw.getD 1 0#8 = s.regs.fcmd →
      exec (.frmDecode opds) s = .next (s.after
        { s.regs with
          crc := c, status := 0x00#8, fpay := pay,
          flen := BitVec.ofNat 16 (opds.length - 4), fchk := r } (0x00#8 :: pay)))) ∧
  (∀ opds : List OperandWord, opds.length ≤ 65535 →
    encode (.frmDecode opds) = ⟨0x12000000#32 ||| BitVec.ofNat 32 opds.length, opds⟩ ∧
    need (0x12000000#32 ||| BitVec.ofNat 32 opds.length) = opds.length ∧
    TakesOperandsFirst (0x12000000#32 ||| BitVec.ofNat 32 opds.length)) ∧
  crc16 [0x1E#8, 0x21#8, 0x03#8, 0x01#8] = 0x3697#16

/-- R134 and R135: when FRM.DECODE writes CRC, and that it commits on success only. -/
def Obligations.FailedDecodeKeepsTheRequest : Prop :=
  ∀ (s t : State) (opds : List OperandWord), exec (.frmDecode opds) s = .next t →
    ((t.regs.status = 0x07#8 ∨ t.regs.status = 0x05#8 ∨ t.regs.status = 0x06#8 ∨
        t.regs.status = 0x01#8) → t.regs.crc = s.regs.crc) ∧
    ((t.regs.status = 0x00#8 ∨ t.regs.status = 0x02#8 ∨ t.regs.status = 0x03#8 ∨
        t.regs.status = 0x04#8) →
      t.regs.crc = crc16 ((opds.map fun u => u.extractLsb' 0 8).take (opds.length - 2))) ∧
    (t.regs.status ≠ 0x00#8 →
      t.regs.valid = s.regs.valid ∧ t.regs.fid = s.regs.fid ∧ t.regs.fcmd = s.regs.fcmd ∧
      t.regs.flen = s.regs.flen ∧ t.regs.fpay = s.regs.fpay ∧ t.regs.fchk = s.regs.fchk)

/-- R197: after a successful FRM.DECODE the frame register holds the response, and FRM.ENCODE emits the
very bytes that were received. -/
def Obligations.EncodeAfterDecodeSendsTheReceivedFrame : Prop :=
  ∀ (s t : State) (opds : List OperandWord), exec (.frmDecode opds) s = .next t →
    t.regs.status = 0x00#8 →
    ∃ u, exec .frmEncode t = .next u ∧
      u.responses = t.responses ++ [0x00#8 :: opds.map fun v => v.extractLsb' 0 8] ∧
      u.regs = t.regs

/-- R138: encoding the frame register and decoding the bytes gives the frame back. -/
def Obligations.EncodeThenDecodeKeepsTheFrame : Prop :=
  ∀ s : State, s.regs.valid = true → s.regs.FrameInv Config.hardware →
    ∃ t u, exec .frmEncode s = .next t ∧
      t.responses = s.responses ++ [0x00#8 :: encodeFrame s.regs.fid s.regs.fcmd s.regs.fpay] ∧
      exec (.frmDecode ((encodeFrame s.regs.fid s.regs.fcmd s.regs.fpay).map fun b => b.setWidth 16)) t =
        .next u ∧
      u.responses = t.responses ++ [0x00#8 :: s.regs.fpay] ∧
      u.regs = { s.regs with crc := s.regs.fchk, status := 0x00#8 }

/-- R139. -/
def Obligations.FrmReadReturnsTheFrameRegister : Prop :=
  (∀ s : State, s.regs.valid = true → s.regs.FrameInv Config.hardware →
    ∃ rsp, exec .frmRead s = .next (s.after { s.regs with status := 0x00#8 } rsp) ∧
      rsp = [0x00#8, s.regs.fid, s.regs.fcmd, s.regs.flen.extractLsb' 0 8, s.regs.flen.extractLsb' 8 8]
        ++ s.regs.fpay ++ [s.regs.fchk.extractLsb' 0 8, s.regs.fchk.extractLsb' 8 8] ∧
      rsp.length = 1 + 6 + s.regs.flen.toNat) ∧
  (∀ s : State, s.regs.valid = false →
    exec .frmRead s = .next (s.after { s.regs with status := 0x07#8 } [0x07#8])) ∧
  encode .frmRead = ⟨0x13000000#32, []⟩ ∧ decode ⟨0x13000000#32, []⟩ = .ok .frmRead ∧
  need 0x13000000#32 = 0 ∧
  (∀ w : CommandWord, w.extractLsb' 24 8 = 0x13#8 → w ≠ 0x13000000#32 → RaisesIllegalOp w)

/-! ## Status, illegal words, and rules about every command -/

/-- R150. -/
def Obligations.StatReadReturnsStatusUnwritten : Prop :=
  (∀ s : State, exec .statRead s = .next (s.after s.regs [0x00#8, s.regs.status])) ∧
  exec .statRead State.reset = .next (State.reset.after State.reset.regs [0x00#8, 0x00#8]) ∧
  encode .statRead = ⟨0x20000000#32, []⟩ ∧ decode ⟨0x20000000#32, []⟩ = .ok .statRead ∧
  need 0x20000000#32 = 0 ∧
  (∀ w : CommandWord, w.extractLsb' 24 8 = 0x20#8 → w ≠ 0x20000000#32 → RaisesIllegalOp w)

/-- R151, R152 and R168: an illegal word takes no operand words, writes 0x08 to STATUS, answers [0x08], and
changes nothing else. The last clause says it at the ports: the very edge that accepts the word sets STATUS
and begins the response, and no operand word crosses then. That it is this edge, and not a later one, is
the model's choice (log entry 4). -/
def Obligations.IllegalWordWritesOnlyStatus : Prop :=
  ∀ w : CommandWord, legalWord w = false →
    RaisesIllegalOp w ∧ need w = 0 ∧
    (∀ (s : State) (p : PortIn), s.phase = .idle → s.stall = 0 → p.rstN = true → p.cmdValid = true →
      p.cmdData = w →
      (portOut s).opdReady = false ∧
      ∃ t, portEdge p s = .next t ∧ t.regs = { s.regs with status := 0x08#8 } ∧
        t.phase = .sending [] [0x08#8] ∧ (portOut t).opdReady = false)

/-- The write columns of the access matrix of R34: which commands can change which register. -/
def Obligations.OnlyTheListedCommandsWriteEachRegister : Prop :=
  ∀ (i : Instr) (s t : State), exec i s = .next t →
    (t.regs.crc ≠ s.regs.crc →
      i = .crcInit ∨ (∃ b, i = .crcUpdate b) ∨ (i = .frmEncode ∧ t.regs.status = 0x00#8) ∨
      isDecode i = true) ∧
    (t.regs.status ≠ s.regs.status → i ≠ .statRead) ∧
    (t.regs.valid ≠ s.regs.valid → isLoad i = true) ∧
    ((t.regs.fid ≠ s.regs.fid ∨ t.regs.fcmd ≠ s.regs.fcmd) →
      isLoad i = true ∧ t.regs.status = 0x00#8) ∧
    ((t.regs.flen ≠ s.regs.flen ∨ t.regs.fpay ≠ s.regs.fpay ∨ t.regs.fchk ≠ s.regs.fchk) →
      (isLoad i = true ∨ isDecode i = true) ∧ t.regs.status = 0x00#8)

/-- R47: the read commands write STATUS at most, and repeated at once they answer the same. -/
def Obligations.ReadCommandsRepeatTheirResponse : Prop :=
  (∀ s t u : State, exec .crcRead s = .next t → exec .crcRead t = .next u →
    t.regs = { s.regs with status := 0x00#8 } ∧
    ∃ rsp, t.responses = s.responses ++ [rsp] ∧ u.responses = t.responses ++ [rsp]) ∧
  (∀ s t u : State, exec .frmRead s = .next t → exec .frmRead t = .next u →
    t.regs = { s.regs with status := if s.regs.valid then 0x00#8 else 0x07#8 } ∧
    ∃ rsp, t.responses = s.responses ++ [rsp] ∧ u.responses = t.responses ++ [rsp]) ∧
  (∀ s t u : State, exec .statRead s = .next t → exec .statRead t = .next u →
    t.regs = s.regs ∧
    ∃ rsp, t.responses = s.responses ++ [rsp] ∧ u.responses = t.responses ++ [rsp])

/-- R31: no command reads STATUS to decide what it does; only STAT.READ's data show it. -/
def Obligations.NoCommandDependsOnStatus : Prop :=
  (∀ (i : Instr) (s : State) (v : Byte), i ≠ .statRead →
    exec i { s with regs := { s.regs with status := v } } = exec i s) ∧
  (∀ (s : State) (v : Byte), exec .statRead { s with regs := { s.regs with status := v } } =
    .next (s.after { s.regs with status := v } [0x00#8, v]))

/-- R35: while FRM_VALID is 0 the other frame registers cannot be observed: states that differ there only
take the same steps, drive the same outputs and give the same responses. Two equalities in it are the
model's choice: that the two next states stall alike (log entry 5), and that rsp_data and rsp_last are
equal while rsp_valid is 0, where they are free values of one counter (log entry 6). -/
def Obligations.FrameRegistersAreUnobservableWithoutAFrame : Prop :=
  ∀ s t : State, FrameBlind s t →
    SameOutcome FrameBlind (step s) (step t) ∧ portOut s = portOut t ∧ s.responses = t.responses

/-- R153, R67 and R160: every well-formed transaction, legal or illegal, completes with exactly one
response, and the block is idle again; the response is one of the nine codes and data that are empty
after an error, and every command but STAT.READ leaves the code in STATUS. That responses are recorded in
the state is the model's choice (log entry 3). -/
def Obligations.EveryWellFormedTransactionCompletes : Prop :=
  ∀ (s : State) (w : CommandWord) (opds : List OperandWord), s.phase = .idle →
    opds.length = need w →
    ∃ t code data, step (s.issuing w opds) = .next t ∧ t = s.after t.regs (code :: data) ∧
      code.toNat ≤ 8 ∧ (code ≠ 0x00#8 → data = []) ∧ (w ≠ 0x20000000#32 → t.regs.status = code)

/-- R66: which transactions are well formed; a model refuses the others; at the port level too few
operand words leave the block waiting, and words it does not need stay on the channel, where the next
command that takes operands consumes them as its first. An edge of a pending stall changes nothing else
(log entry 5). -/
def Obligations.TransactionsWithAWrongOperandCount : Prop :=
  (∀ (w : CommandWord) (opds : List OperandWord),
    Transaction.wellFormed ⟨w, opds⟩ = true ↔ opds.length = need w) ∧
  (∀ (s : State) (w : CommandWord) (opds : List OperandWord), s.phase = .idle →
    opds.length = need w → ∃ t, step (s.issuing w opds) = .next t) ∧
  (∀ (s : State) (w : CommandWord) (opds : List OperandWord), s.phase = .idle →
    opds.length ≠ need w → step (s.issuing w opds) = .refused .operandCount) ∧
  (∀ (s : State) (p : PortIn), p.rstN = true → opdReady s = true → p.opdValid = false →
    portEdge p s = .next s) ∧
  (∀ (s : State) (p : PortIn) (v : Bool) (d : OperandWord), opdReady s = false →
    portEdge { p with opdValid := v, opdData := d } s = portEdge p s) ∧
  (∀ (s : State) (p : PortIn) (v : Bool) (d : OperandWord), s.phase = .idle → s.stall = 0 →
    p.rstN = true → p.cmdValid = true → 0 < need p.cmdData →
    ∃ t, portEdge { p with opdValid := v, opdData := d } s = .next t ∧
      t.phase = .taking p.cmdData []) ∧
  (∀ (s : State) (p : PortIn) (w : CommandWord), s.phase = .taking w [] → s.stall = 0 →
    p.rstN = true → p.opdValid = true → 1 < need w →
    ∃ t, portEdge p s = .next t ∧ t.phase = .taking w [p.opdData])

/-! ## The machine's steps -/

/-- A step runs the decoded command of the host's next transaction on the idle block; after a response
still on its way has been drained (R202), on the block at rest. That the host's inputs stand in the state
and that a response is drained so are the model's choices (log entries 2 and 7). -/
def Obligations.StepRunsTheDecodedCommand : Prop :=
  (∀ (s : State) (t : Transaction) (rest : List HostInput) (i : Instr), s.phase = .idle →
    s.inbox = .transaction t :: rest → decode t = .ok i → step s = exec i { s with inbox := rest }) ∧
  (∀ (s : State) (t : Transaction) (rest : List HostInput) (i : Instr) (sent left : List Byte),
    s.phase = .sending sent left → s.inbox = .transaction t :: rest → decode t = .ok i →
    step s = exec i
      { s with phase := .idle, inbox := rest, responses := s.responses ++ [sent ++ left] }) ∧
  (∀ s : State, s.inbox = [] → step s = .next s)

/-- Every step keeps the invariant of the registers, the ports and the responses. -/
def Obligations.StepKeepsTheInvariant : Prop :=
  ∀ s t : State, s.Inv → step s = .next t → t.Inv

/-- The invariant holds at reset. -/
def Obligations.ResetMeetsTheInvariant : Prop :=
  State.reset.Inv

/-- R30, in every state a run leads to. -/
def Obligations.ValidFrameIsConsistentInEveryRun : Prop :=
  ∀ s : State, Reachable s → s.regs.valid = true →
    s.regs.flen.toNat = s.regs.fpay.length ∧ s.regs.flen.toNat ≤ 255 ∧
    s.regs.fchk = crc16 ([s.regs.fid, s.regs.fcmd] ++ s.regs.fpay)

/-- R4 and R27: for every MAX_PAYLOAD a configuration may have, the commands that write the frame keep
it consistent and within MAX_PAYLOAD. -/
def Obligations.FrameStaysConsistentForEveryCapacity : Prop :=
  ∀ (cfg : Config) (r : Registers), r.FrameInv cfg →
    (∀ (id cmd : OperandWord) (pay : List OperandWord), (loadFrame cfg id cmd pay r).regs.FrameInv cfg) ∧
    (∀ opds : List OperandWord, (checkFrame cfg opds r).regs.FrameInv cfg)

/-- R194: after reset the CRC commands need nothing before them, and FRM.ENCODE, FRM.DECODE and FRM.READ
raise NoFrame until a FRM.LOAD has succeeded. -/
def Obligations.FrameCommandsNeedALoadAfterReset : Prop :=
  (∀ is : List Instr, (∀ i ∈ is, keepsStream i = true) →
    ∃ t, commandsRun is State.reset = .next t ∧ t.regs.crc = crc16 (is.filterMap updatedByte)) ∧
  (∀ u : State, ReachedBy (fun i v => isLoad i = true → v.regs.status ≠ 0x00#8) State.reset u →
    exec .frmEncode u = .next (u.after { u.regs with status := 0x07#8 } [0x07#8]) ∧
    (∀ opds : List OperandWord,
      exec (.frmDecode opds) u = .next (u.after { u.regs with status := 0x07#8 } [0x07#8])) ∧
    exec .frmRead u = .next (u.after { u.regs with status := 0x07#8 } [0x07#8]))

/-- R35: the reset values. -/
def Obligations.ResetValues : Prop :=
  State.reset.regs.crc = 0xFFFF#16 ∧ State.reset.regs.status = 0x00#8 ∧
  State.reset.regs.valid = false ∧ State.reset.regs.fid = 0x00#8 ∧ State.reset.regs.fcmd = 0x00#8 ∧
  State.reset.regs.flen = 0#16 ∧ State.reset.regs.fpay = [] ∧ State.reset.regs.fchk = 0x0000#16

/-! ## The ports -/

/-- R190 and R192: rst_n = 0 at an edge resets every register and holds the ready and valid outputs at
0, whatever was in progress; from the first edge with rst_n = 1 on the block is idle and ready, and stays
so until a command word comes. -/
def Obligations.ResetEdgeAbandonsEverything : Prop :=
  ∀ (s : State) (p q : PortIn), p.rstN = false → q.rstN = true →
    ∃ t u, portEdge p s = .next t ∧
      t.regs = ⟨0xFFFF#16, 0x00#8, false, 0x00#8, 0x00#8, 0#16, [], 0x0000#16⟩ ∧
      (portOut t).cmdReady = false ∧ (portOut t).opdReady = false ∧ (portOut t).rspValid = false ∧
      portEdge q t = .next u ∧ u.regs = t.regs ∧ u.phase = .idle ∧ (portOut u).cmdReady = true ∧
      (∀ v : PortIn, v.rstN = true → v.cmdValid = false → portEdge v u = .next u)

/-- R60: the handshake. An input of a channel matters only while the block is ready for it; cmd_ready
and opd_ready are 1 only in the states R60 names; a valid response beat is the next byte, and
rsp_last marks the last one. -/
def Obligations.ChannelsTransferOnlyWhenReady : Prop :=
  (∀ (s : State) (p : PortIn) (v : Bool) (d : CommandWord), (portOut s).cmdReady = false →
    portEdge { p with cmdValid := v, cmdData := d } s = portEdge p s) ∧
  (∀ (s : State) (p : PortIn) (v : Bool) (d : OperandWord), (portOut s).opdReady = false →
    portEdge { p with opdValid := v, opdData := d } s = portEdge p s) ∧
  (∀ (s : State) (p : PortIn) (v : Bool), (portOut s).rspValid = false → s.Inv →
    portEdge { p with rspReady := v } s = portEdge p s) ∧
  (∀ s : State, (portOut s).cmdReady = true → s.phase = .idle) ∧
  (∀ s : State, s.Inv → (portOut s).opdReady = true →
    ∃ w taken, s.phase = .taking w taken ∧ taken.length < need w) ∧
  (∀ s : State, (portOut s).rspValid = true →
    ∃ sent b rest, s.phase = .sending sent (b :: rest) ∧ (portOut s).rspData = b ∧
      ((portOut s).rspLast = true ↔ rest = []))

/-- R76: with rst_n = 1, every edge either leaves the transaction-level view as it was or carries out
exactly one well-formed transaction on it. That the state changes at the edge that takes the last word is
the model's choice (log entry 4). -/
def Obligations.EveryEdgeStuttersOrCarriesOutOneTransaction : Prop :=
  ∀ (s t : State) (p : PortIn), s.Inv → p.rstN = true → portEdge p s = .next t →
    t.view = s.view ∨
    ∃ (w : CommandWord) (opds : List OperandWord) (u : State), opds.length = need w ∧
      step (s.atRest.issuing w opds) = .next u ∧ t.view = u.view

/-- R76 and R205: a host that supplies the operands and accepts the response drives every well-formed
transaction to its end in finitely many edges, with the registers and the response of exec, for every
value of the free number of stalled edges (log entry 5). -/
def Obligations.PatientHostGetsEveryTransactionDone : Prop :=
  ∀ (s u : State) (w : CommandWord) (opds : List OperandWord), s.phase = .idle →
    opds.length = need w → step (s.issuing w opds) = .next u →
    ∃ k t, eagerRun ⟨w, opds⟩ k s = .next t ∧ t.phase = .idle ∧ t.regs = u.regs ∧
      t.responses = u.responses ∧ t.inbox = s.inbox

/-- R199 and R202: with too few operand words the block waits with opd_ready = 1 through any number of
edges with rst_n = 1, and a response that is not drained holds it, once no stall is pending (log
entry 5). -/
def Obligations.BlockWaitsForItsHost : Prop :=
  (∀ (s : State) (w : CommandWord) (taken : List OperandWord) (ps : List PortIn),
    s.phase = .taking w taken → s.stall = 0 → (∀ p ∈ ps, p.rstN = true ∧ p.opdValid = false) →
    ({ s with inbox := ps.map .clockEdge ++ s.inbox } : State).run ps.length = .next s ∧
    (portOut s).opdReady = true ∧ (portOut s).cmdReady = false) ∧
  (∀ (s : State) (sent rest : List Byte) (ps : List PortIn),
    s.phase = .sending sent rest → s.stall = 0 → (∀ p ∈ ps, p.rstN = true ∧ p.rspReady = false) →
    ({ s with inbox := ps.map .clockEdge ++ s.inbox } : State).run ps.length = .next s ∧
    (portOut s).cmdReady = false)

/-! ## The assembler -/

/-- R74: the command words and operand words of each line. -/
def Obligations.AssemblerWritesTheTransactionsOfItsTable : Prop :=
  assembleTransactions .crcInit = some [⟨0x01000000#32, []⟩] ∧
  (∀ b : Byte, assembleTransactions (.crcUpdate b.toNat) =
    some [⟨0x02000000#32 ||| b.setWidth 32, []⟩]) ∧
  (∀ v : Int, v < 0 ∨ 255 < v → assembleTransactions (.crcUpdate v) = none) ∧
  assembleTransactions .crcRead = some [⟨0x03000000#32, []⟩] ∧
  (∀ (id cmd : Int) (pay : List Int), pay.length ≤ 65535 →
    (∀ v ∈ id :: cmd :: pay, -32768 ≤ v ∧ v ≤ 65535) →
    assembleTransactions (.frmLoad id cmd pay) =
      some [⟨0x10000000#32 ||| BitVec.ofNat 32 pay.length, (id :: cmd :: pay).map (BitVec.ofInt 16)⟩]) ∧
  assembleTransactions .frmEncode = some [⟨0x11000000#32, []⟩] ∧
  (∀ raw : List Int, raw.length ≤ 65535 → (∀ v ∈ raw, -32768 ≤ v ∧ v ≤ 65535) →
    assembleTransactions (.frmDecode raw) =
      some [⟨0x12000000#32 ||| BitVec.ofNat 32 raw.length, raw.map (BitVec.ofInt 16)⟩]) ∧
  assembleTransactions .frmRead = some [⟨0x13000000#32, []⟩] ∧
  assembleTransactions .statRead = some [⟨0x20000000#32, []⟩] ∧
  (∀ (w : CommandWord) (us : List OperandWord),
    assembleTransactions (.cmd w.toNat (us.map fun u => (u.toNat : Int))) = some [⟨w, us⟩])

/-- R75: `crc.compute` over bytes, run on an idle block, ends with the response that carries crc16 of
the bytes, low byte first; `crc.bytes` is the updates alone. That both may stand with no bytes at all is
the model's choice (log entry 8). -/
def Obligations.CrcComputeAnswersCrc16 : Prop :=
  ∀ (s : State) (bs : List Byte), s.phase = .idle →
    assembleTransactions (.crcBytes (bs.map fun b => (b.toNat : Int))) =
      some (bs.map fun b => ⟨0x02000000#32 ||| b.setWidth 32, []⟩) ∧
    ∃ ts t before, assembleTransactions (.crcCompute (bs.map fun b => (b.toNat : Int))) = some ts ∧
      ts = ⟨0x01000000#32, []⟩ :: (bs.map fun b => ⟨0x02000000#32 ||| b.setWidth 32, []⟩)
        ++ [⟨0x03000000#32, []⟩] ∧
      (s.given ts).run ts.length = .next t ∧
      t.responses = before ++ [[0x00#8, (crc16 bs).extractLsb' 0 8, (crc16 bs).extractLsb' 8 8]] ∧
      t.regs = { s.regs with crc := crc16 bs, status := 0x00#8 }
end

