-- ==== Sys2Proof/Laws/Assembler.lean ====
section
/-! SUPPORT. Laws of the assembler: which literals fit, and lists of literals that all convert. -/

namespace Sys2Proof.Machine

/-- The value of a field fits the field. -/
@[simp] theorem fieldOfInt_toNat (n : Nat) (b : BitVec n) : fieldOfInt n (b.toNat : Int) = some b := by
  change (if b.toNat < 2 ^ n then some (BitVec.ofNat n b.toNat) else none) = some b
  rw [if_pos b.isLt, BitVec.ofNat_toNat, BitVec.setWidth_eq]

/-- A literal outside the field is refused (R74). -/
theorem fieldOfInt_none (n : Nat) (v : Int) (h : v < 0 ∨ (2 ^ n : Nat) ≤ v) : fieldOfInt n v = none := by
  cases v with
  | ofNat k =>
    have big : 2 ^ n ≤ k := by
      rcases h with h | h
      · exact absurd h (not_lt.mpr (Int.natCast_nonneg k))
      · exact Int.ofNat_le.mp h
    exact if_neg (not_lt.mpr big)
  | negSucc k => rfl

/-- Converting a list of values that all convert. -/
theorem mapM_of_forall {α β : Type} (f : α → Option β) (g : α → β) (l : List α)
    (h : ∀ x ∈ l, f x = some (g x)) : l.mapM f = some (l.map g) := by
  induction l with
  | nil => rfl
  | cons a l ih =>
    rw [List.mapM_cons, h a List.mem_cons_self, ih fun x hx => h x (List.mem_cons_of_mem _ hx)]
    rfl

end Sys2Proof.Machine
end

