-- ==== Sys2Proof/Laws/Checksum.lean ====
section
/-! SUPPORT. Laws of the CRC: the fold over a concatenation, and that a step loses nothing. -/

namespace Sys2Proof.Machine

@[simp] theorem crcFold_nil (c : Half) : crcFold c [] = c := rfl

@[simp] theorem crcFold_cons (c : Half) (b : Byte) (s : List Byte) :
    crcFold c (b :: s) = crcFold (crcStep c b) s := rfl

/-- Folding over a concatenation is folding over its parts in turn (R106). -/
theorem crcFold_append (c : Half) (s t : List Byte) :
    crcFold c (s ++ t) = crcFold (crcFold c s) t := by
  simp [crcFold]

theorem crc16_append (s t : List Byte) : crc16 (s ++ t) = crcFold (crc16 s) t :=
  crcFold_append crcSeed s t

/-- Every bit of one pass: the bit above, and the polynomial's bit when the lowest bit was 1. -/
theorem crcBit_getLsbD (c : Half) (k : Nat) :
    (crcBit c).getLsbD k = ((c.getLsbD (k + 1)) ^^ (c.getLsbD 0 && crcPolynomial.getLsbD k)) := by
  unfold crcBit
  split <;> simp_all [Nat.add_comm]

/-- The top bit after a pass is the bit shifted out. -/
theorem crcBit_top (c : Half) : (crcBit c).getLsbD 15 = c.getLsbD 0 := by
  rw [crcBit_getLsbD, BitVec.getLsbD_of_ge c 16 (le_refl 16),
    show crcPolynomial.getLsbD 15 = true from by decide]
  simp

/-- One pass loses nothing: the top bit tells whether the polynomial was applied. -/
theorem crcBit_injective : Function.Injective crcBit := by
  intro c d h
  have low : c.getLsbD 0 = d.getLsbD 0 := by rw [← crcBit_top, ← crcBit_top, h]
  apply BitVec.eq_of_getLsbD_eq
  intro k hk
  cases k with
  | zero => exact low
  | succ k =>
    have bit : (crcBit c).getLsbD k = (crcBit d).getLsbD k := by rw [h]
    rw [crcBit_getLsbD, crcBit_getLsbD, low] at bit
    simpa using bit

/-- A step loses nothing of the running value. -/
theorem crcStep_injective (b : Byte) : Function.Injective fun c => crcStep c b := by
  intro c d h
  exact (BitVec.xor_left_inj _).mp (crcBit_injective.iterate 8 h)

/-- A step loses nothing of the byte. -/
theorem crcStep_injective_byte (c : Half) : Function.Injective (crcStep c) := by
  intro a b h
  have wide := (BitVec.xor_right_inj _).mp (crcBit_injective.iterate 8 h)
  have back := congrArg (BitVec.setWidth 8) wide
  simpa using back

/-- Folding over the same bytes loses nothing of the running value. -/
theorem crcFold_injective (s : List Byte) : Function.Injective fun c => crcFold c s := by
  induction s with
  | nil => exact fun _ _ h => h
  | cons b s ih => exact fun c d h => crcStep_injective b (ih h)

/-- One pass over an exclusive-or is the exclusive-or of the passes: the CRC is linear. -/
theorem crcBit_xor (c d : Half) : crcBit (c ^^^ d) = crcBit c ^^^ crcBit d := by
  apply BitVec.eq_of_getLsbD_eq
  intro k _
  simp only [crcBit_getLsbD, BitVec.getLsbD_xor]
  cases c.getLsbD (k + 1) <;> cases d.getLsbD (k + 1) <;> cases c.getLsbD 0 <;>
    cases d.getLsbD 0 <;> simp

theorem crcBits_xor (n : Nat) (c d : Half) :
    Nat.iterate crcBit n (c ^^^ d) = Nat.iterate crcBit n c ^^^ Nat.iterate crcBit n d := by
  induction n generalizing c d with
  | zero => rfl
  | succ n ih => simp only [Function.iterate_succ, Function.comp, crcBit_xor, ih]

/-- While the lowest bits are 0 a pass only shifts. -/
theorem crcBits_of_low_zero (n : Nat) (c : Half) (h : ∀ k, k < n → c.getLsbD k = false) :
    Nat.iterate crcBit n c = c >>> n := by
  induction n generalizing c with
  | zero => simp
  | succ n ih =>
    have pass : crcBit c = c >>> 1 := by
      rw [crcBit, h 0 (Nat.succ_pos n)]
      rfl
    rw [Function.iterate_succ, Function.comp, pass, ih]
    · rw [← BitVec.shiftRight_add, Nat.add_comm]
    · intro k hk
      simpa [Nat.add_comm] using h (k + 1) (by omega)

end Sys2Proof.Machine
end

