-- ==== Sys2Proof/Laws/Operands.lean ====
section
/-! SUPPORT. Laws of operand words and of the two halves of a 16-bit value. -/

namespace Sys2Proof.Machine

/-- `le16` puts the high byte above the low byte. -/
theorem le16_eq_append (a b : Byte) : le16 a b = b ++ a := by
  apply BitVec.eq_of_getLsbD_eq
  intro k hk
  simp only [le16, BitVec.getLsbD_or, BitVec.getLsbD_shiftLeft, BitVec.getLsbD_setWidth,
    BitVec.getLsbD_append]
  by_cases low : k < 8
  · simp [low, hk]
  · have past : a.getLsbD k = false := BitVec.getLsbD_of_ge a k (by omega)
    have inside : k - 8 < 16 := by omega
    simp [low, past, hk, inside]

/-- The low half of an appended pair. -/
theorem lo8_append (b a : Byte) : lo8 (b ++ a : Half) = a := by
  apply BitVec.eq_of_getLsbD_eq
  intro k hk
  simp only [lo8, BitVec.getLsbD_extractLsb', BitVec.getLsbD_append, hk, Nat.zero_add]
  simp

/-- The high half of an appended pair. -/
theorem hi8_append (b a : Byte) : hi8 (b ++ a : Half) = b := by
  apply BitVec.eq_of_getLsbD_eq
  intro k hk
  simp only [hi8, BitVec.getLsbD_extractLsb', BitVec.getLsbD_append, hk]
  simp [hk]

@[simp] theorem lo8_le16 (a b : Byte) : lo8 (le16 a b) = a := by
  rw [le16_eq_append, lo8_append]

@[simp] theorem hi8_le16 (a b : Byte) : hi8 (le16 a b) = b := by
  rw [le16_eq_append, hi8_append]

/-- The two halves make up the value (R42). -/
@[simp] theorem le16_halves (v : Half) : le16 (lo8 v) (hi8 v) = v := by
  rw [le16_eq_append]
  apply BitVec.eq_of_getLsbD_eq
  intro k hk
  simp only [BitVec.getLsbD_append, hi8, lo8, BitVec.getLsbD_extractLsb']
  by_cases low : k < 8
  · simp [low]
  · have inside : k - 8 < 8 := by omega
    have back : 8 + (k - 8) = k := by omega
    simp [low, inside, back]

theorem byteOk_iff (u : OperandWord) : byteOk u = true ↔ u.extractLsb' 8 8 = 0x00#8 := by
  simp [byteOk]

theorem allBytesOk_iff (us : List OperandWord) :
    allBytesOk us = true ↔ ∀ u ∈ us, u.extractLsb' 8 8 = 0x00#8 := by
  simp [allBytesOk, byteOk]

theorem allBytesOk_false_iff (us : List OperandWord) :
    allBytesOk us = false ↔ ∃ u ∈ us, u.extractLsb' 8 8 ≠ 0x00#8 := by
  simp [allBytesOk, byteOk]

/-- A byte put into an operand word is in range. -/
@[simp] theorem byteOk_byteOperand (b : Byte) : byteOk (byteOperand b) = true := by
  rw [byteOk_iff, byteOperand]
  apply BitVec.eq_of_getLsbD_eq
  intro k hk
  simp [hk]

/-- A byte put into an operand word comes back. -/
@[simp] theorem operandByte_byteOperand (b : Byte) : operandByte (byteOperand b) = b := by
  apply BitVec.eq_of_getLsbD_eq
  intro k hk
  simp only [operandByte, byteOperand, BitVec.getLsbD_extractLsb', BitVec.getLsbD_setWidth,
    Nat.zero_add]
  simp [hk, Nat.lt_of_lt_of_le hk (by decide : 8 ≤ 16)]

@[simp] theorem allBytesOk_byteOperands (bs : List Byte) :
    allBytesOk (bs.map byteOperand) = true := by
  simp [allBytesOk]

@[simp] theorem operandBytes_byteOperands (bs : List Byte) :
    (bs.map byteOperand).map operandByte = bs := by
  induction bs with
  | nil => rfl
  | cons b bs ih => rw [List.map_cons, List.map_cons, ih, operandByte_byteOperand]

end Sys2Proof.Machine
end

