-- ==== Sys2Proof/Laws/Codec.lean ====
section
/-! SUPPORT. Laws of the frame codec: what each part of a received frame is, in terms of its bytes. -/

namespace Sys2Proof.Machine

@[simp] theorem encodeFrame_length (id cmd : Byte) (pay : List Byte) :
    (encodeFrame id cmd pay).length = pay.length + 4 := by
  simp [encodeFrame]

/-- The computed CRC covers everything before the last two bytes. -/
@[simp] theorem computedCrc_append (body : List Byte) (a b : Byte) :
    computedCrc (body ++ [a, b]) = crc16 body := by
  simp [computedCrc]

/-- The transmitted checksum is the last two bytes, low byte first. -/
@[simp] theorem receivedChecksum_append (body : List Byte) (a b : Byte) :
    receivedChecksum (body ++ [a, b]) = le16 a b := by
  simp [receivedChecksum]

/-- The payload is what stands between the header and the checksum. -/
@[simp] theorem receivedPayload_append (id cmd a b : Byte) (pay : List Byte) :
    receivedPayload (id :: cmd :: (pay ++ [a, b])) = pay := by
  simp [receivedPayload]

theorem computedCrc_encodeFrame (id cmd : Byte) (pay : List Byte) :
    computedCrc (encodeFrame id cmd pay) = crc16 (id :: cmd :: pay) :=
  computedCrc_append _ _ _

theorem receivedChecksum_encodeFrame (id cmd : Byte) (pay : List Byte) :
    receivedChecksum (encodeFrame id cmd pay) = crc16 (id :: cmd :: pay) :=
  (receivedChecksum_append _ _ _).trans (le16_halves _)

/-- A received frame of at least four bytes is a header, a payload and two checksum bytes. -/
theorem frame_parts (raw : List Byte) (h : 4 ≤ raw.length) :
    ∃ id cmd pay a b, raw = id :: cmd :: (pay ++ [a, b]) := by
  match raw, h with
  | id :: cmd :: rest, h =>
    have long : 2 ≤ rest.length := by simpa using h
    obtain ⟨front, a, rfl⟩ := List.eq_nil_or_concat rest |>.resolve_left (by
      rintro rfl; simp at long)
    obtain ⟨pay, b, rfl⟩ := List.eq_nil_or_concat front |>.resolve_left (by
      rintro rfl; simp at long)
    exact ⟨id, cmd, pay, b, a, by simp⟩

/-- Everything `decodeFrame` can answer (R121). -/
theorem decodeFrame_cases (eid ecmd : Byte) (raw : List Byte) :
    (computedCrc raw ≠ receivedChecksum raw ∧ decodeFrame eid ecmd raw = .err .checksumMismatch) ∨
    (computedCrc raw = receivedChecksum raw ∧ raw.getD 0 0#8 ≠ eid ∧
      decodeFrame eid ecmd raw = .err .unexpectedId) ∨
    (computedCrc raw = receivedChecksum raw ∧ raw.getD 0 0#8 = eid ∧ raw.getD 1 0#8 ≠ ecmd ∧
      decodeFrame eid ecmd raw = .err .unexpectedCommand) ∨
    (computedCrc raw = receivedChecksum raw ∧ raw.getD 0 0#8 = eid ∧ raw.getD 1 0#8 = ecmd ∧
      decodeFrame eid ecmd raw = .ok (receivedPayload raw) (receivedChecksum raw)) := by
  unfold decodeFrame
  by_cases sum : computedCrc raw = receivedChecksum raw
  · by_cases id : raw.getD 0 0#8 = eid
    · by_cases cmd : raw.getD 1 0#8 = ecmd
      · exact .inr (.inr (.inr ⟨sum, id, cmd, by rw [if_neg (not_not.mpr sum),
          if_neg (not_not.mpr id), if_neg (not_not.mpr cmd)]⟩))
      · exact .inr (.inr (.inl ⟨sum, id, cmd, by rw [if_neg (not_not.mpr sum),
          if_neg (not_not.mpr id), if_pos cmd]⟩))
    · exact .inr (.inl ⟨sum, id, by rw [if_neg (not_not.mpr sum), if_pos id]⟩)
  · exact .inl ⟨sum, if_pos sum⟩

end Sys2Proof.Machine
end

