-- ==== Sys2Proof/Laws/State.lean ====
section
/-! SUPPORT. One lemma per field per update, for the registers and for the machine's state. -/

namespace Sys2Proof.Machine

/-! ### `Registers.withStatus` -/

@[simp] theorem Registers.withStatus_crc (r : Registers) (v : Byte) :
    (r.withStatus v).crc = r.crc := rfl
@[simp] theorem Registers.withStatus_status (r : Registers) (v : Byte) :
    (r.withStatus v).status = v := rfl
@[simp] theorem Registers.withStatus_valid (r : Registers) (v : Byte) :
    (r.withStatus v).valid = r.valid := rfl
@[simp] theorem Registers.withStatus_fid (r : Registers) (v : Byte) :
    (r.withStatus v).fid = r.fid := rfl
@[simp] theorem Registers.withStatus_fcmd (r : Registers) (v : Byte) :
    (r.withStatus v).fcmd = r.fcmd := rfl
@[simp] theorem Registers.withStatus_flen (r : Registers) (v : Byte) :
    (r.withStatus v).flen = r.flen := rfl
@[simp] theorem Registers.withStatus_fpay (r : Registers) (v : Byte) :
    (r.withStatus v).fpay = r.fpay := rfl
@[simp] theorem Registers.withStatus_fchk (r : Registers) (v : Byte) :
    (r.withStatus v).fchk = r.fchk := rfl

/-! ### `Registers.withCrc` -/

@[simp] theorem Registers.withCrc_crc (r : Registers) (c : Half) :
    (r.withCrc c).crc = c := rfl
@[simp] theorem Registers.withCrc_status (r : Registers) (c : Half) :
    (r.withCrc c).status = r.status := rfl
@[simp] theorem Registers.withCrc_valid (r : Registers) (c : Half) :
    (r.withCrc c).valid = r.valid := rfl
@[simp] theorem Registers.withCrc_fid (r : Registers) (c : Half) :
    (r.withCrc c).fid = r.fid := rfl
@[simp] theorem Registers.withCrc_fcmd (r : Registers) (c : Half) :
    (r.withCrc c).fcmd = r.fcmd := rfl
@[simp] theorem Registers.withCrc_flen (r : Registers) (c : Half) :
    (r.withCrc c).flen = r.flen := rfl
@[simp] theorem Registers.withCrc_fpay (r : Registers) (c : Half) :
    (r.withCrc c).fpay = r.fpay := rfl
@[simp] theorem Registers.withCrc_fchk (r : Registers) (c : Half) :
    (r.withCrc c).fchk = r.fchk := rfl

/-! ### `Registers.invalidate` -/

@[simp] theorem Registers.invalidate_crc (r : Registers) :
    (r.invalidate).crc = r.crc := rfl
@[simp] theorem Registers.invalidate_status (r : Registers) :
    (r.invalidate).status = r.status := rfl
@[simp] theorem Registers.invalidate_valid (r : Registers) :
    (r.invalidate).valid = false := rfl
@[simp] theorem Registers.invalidate_fid (r : Registers) :
    (r.invalidate).fid = r.fid := rfl
@[simp] theorem Registers.invalidate_fcmd (r : Registers) :
    (r.invalidate).fcmd = r.fcmd := rfl
@[simp] theorem Registers.invalidate_flen (r : Registers) :
    (r.invalidate).flen = r.flen := rfl
@[simp] theorem Registers.invalidate_fpay (r : Registers) :
    (r.invalidate).fpay = r.fpay := rfl
@[simp] theorem Registers.invalidate_fchk (r : Registers) :
    (r.invalidate).fchk = r.fchk := rfl

/-! ### `Registers.withFrame` -/

@[simp] theorem Registers.withFrame_crc (r : Registers) (id cmd : Byte) (pay : List Byte) :
    (r.withFrame id cmd pay).crc = r.crc := rfl
@[simp] theorem Registers.withFrame_status (r : Registers) (id cmd : Byte) (pay : List Byte) :
    (r.withFrame id cmd pay).status = r.status := rfl
@[simp] theorem Registers.withFrame_valid (r : Registers) (id cmd : Byte) (pay : List Byte) :
    (r.withFrame id cmd pay).valid = true := rfl
@[simp] theorem Registers.withFrame_fid (r : Registers) (id cmd : Byte) (pay : List Byte) :
    (r.withFrame id cmd pay).fid = id := rfl
@[simp] theorem Registers.withFrame_fcmd (r : Registers) (id cmd : Byte) (pay : List Byte) :
    (r.withFrame id cmd pay).fcmd = cmd := rfl
@[simp] theorem Registers.withFrame_flen (r : Registers) (id cmd : Byte) (pay : List Byte) :
    (r.withFrame id cmd pay).flen = BitVec.ofNat 16 pay.length := rfl
@[simp] theorem Registers.withFrame_fpay (r : Registers) (id cmd : Byte) (pay : List Byte) :
    (r.withFrame id cmd pay).fpay = pay := rfl
@[simp] theorem Registers.withFrame_fchk (r : Registers) (id cmd : Byte) (pay : List Byte) :
    (r.withFrame id cmd pay).fchk = crc16 (id :: cmd :: pay) := rfl

/-! ### `Registers.withResponse` -/

@[simp] theorem Registers.withResponse_crc (r : Registers) (pay : List Byte) (chk : Half) :
    (r.withResponse pay chk).crc = r.crc := rfl
@[simp] theorem Registers.withResponse_status (r : Registers) (pay : List Byte) (chk : Half) :
    (r.withResponse pay chk).status = r.status := rfl
@[simp] theorem Registers.withResponse_valid (r : Registers) (pay : List Byte) (chk : Half) :
    (r.withResponse pay chk).valid = r.valid := rfl
@[simp] theorem Registers.withResponse_fid (r : Registers) (pay : List Byte) (chk : Half) :
    (r.withResponse pay chk).fid = r.fid := rfl
@[simp] theorem Registers.withResponse_fcmd (r : Registers) (pay : List Byte) (chk : Half) :
    (r.withResponse pay chk).fcmd = r.fcmd := rfl
@[simp] theorem Registers.withResponse_flen (r : Registers) (pay : List Byte) (chk : Half) :
    (r.withResponse pay chk).flen = BitVec.ofNat 16 pay.length := rfl
@[simp] theorem Registers.withResponse_fpay (r : Registers) (pay : List Byte) (chk : Half) :
    (r.withResponse pay chk).fpay = pay := rfl
@[simp] theorem Registers.withResponse_fchk (r : Registers) (pay : List Byte) (chk : Half) :
    (r.withResponse pay chk).fchk = chk := rfl

/-! ### `State.complete` -/

@[simp] theorem State.complete_regs (s : State) (x : Result) :
    (s.complete x).regs = x.regs := rfl
@[simp] theorem State.complete_phase (s : State) (x : Result) :
    (s.complete x).phase = s.phase := rfl
@[simp] theorem State.complete_stall (s : State) (x : Result) :
    (s.complete x).stall = s.stall := rfl
@[simp] theorem State.complete_draws (s : State) (x : Result) :
    (s.complete x).draws = s.draws := rfl
@[simp] theorem State.complete_inbox (s : State) (x : Result) :
    (s.complete x).inbox = s.inbox := rfl
@[simp] theorem State.complete_responses (s : State) (x : Result) :
    (s.complete x).responses = s.responses ++ [x.rsp] := rfl

/-! ### `State.after` -/

@[simp] theorem State.after_regs (s : State) (r : Registers) (rsp : List Byte) :
    (s.after r rsp).regs = r := rfl
@[simp] theorem State.after_phase (s : State) (r : Registers) (rsp : List Byte) :
    (s.after r rsp).phase = s.phase := rfl
@[simp] theorem State.after_stall (s : State) (r : Registers) (rsp : List Byte) :
    (s.after r rsp).stall = s.stall := rfl
@[simp] theorem State.after_draws (s : State) (r : Registers) (rsp : List Byte) :
    (s.after r rsp).draws = s.draws := rfl
@[simp] theorem State.after_inbox (s : State) (r : Registers) (rsp : List Byte) :
    (s.after r rsp).inbox = s.inbox := rfl
@[simp] theorem State.after_responses (s : State) (r : Registers) (rsp : List Byte) :
    (s.after r rsp).responses = s.responses ++ [rsp] := rfl

/-! ### `State.enter` -/

@[simp] theorem State.enter_regs (s : State) (ph : Phase) :
    (s.enter ph).regs = s.regs := rfl
@[simp] theorem State.enter_phase (s : State) (ph : Phase) :
    (s.enter ph).phase = ph := rfl
@[simp] theorem State.enter_stall (s : State) (ph : Phase) :
    (s.enter ph).stall = Config.portStall s.draws := rfl
@[simp] theorem State.enter_draws (s : State) (ph : Phase) :
    (s.enter ph).draws = s.draws + 1 := rfl
@[simp] theorem State.enter_inbox (s : State) (ph : Phase) :
    (s.enter ph).inbox = s.inbox := rfl
@[simp] theorem State.enter_responses (s : State) (ph : Phase) :
    (s.enter ph).responses = s.responses := rfl

/-! ### `State.issuing` -/

@[simp] theorem State.issuing_regs (s : State) (w : CommandWord) (opds : List OperandWord) :
    (s.issuing w opds).regs = s.regs := rfl
@[simp] theorem State.issuing_phase (s : State) (w : CommandWord) (opds : List OperandWord) :
    (s.issuing w opds).phase = s.phase := rfl
@[simp] theorem State.issuing_stall (s : State) (w : CommandWord) (opds : List OperandWord) :
    (s.issuing w opds).stall = s.stall := rfl
@[simp] theorem State.issuing_draws (s : State) (w : CommandWord) (opds : List OperandWord) :
    (s.issuing w opds).draws = s.draws := rfl
@[simp] theorem State.issuing_inbox (s : State) (w : CommandWord) (opds : List OperandWord) :
    (s.issuing w opds).inbox = .transaction ⟨w, opds⟩ :: s.inbox := rfl
@[simp] theorem State.issuing_responses (s : State) (w : CommandWord) (opds : List OperandWord) :
    (s.issuing w opds).responses = s.responses := rfl

/-! ### `State.atRest` -/

@[simp] theorem State.atRest_regs (s : State) :
    (s.atRest).regs = s.regs := rfl
@[simp] theorem State.atRest_phase (s : State) :
    (s.atRest).phase = .idle := rfl
@[simp] theorem State.atRest_stall (s : State) :
    (s.atRest).stall = 0 := rfl
@[simp] theorem State.atRest_draws (s : State) :
    (s.atRest).draws = s.draws := rfl
@[simp] theorem State.atRest_inbox (s : State) :
    (s.atRest).inbox = s.inbox := rfl
@[simp] theorem State.atRest_responses (s : State) :
    (s.atRest).responses = s.allResponses := rfl

/-! ### `resetEdge` -/

@[simp] theorem resetEdge_regs (s : State) : (resetEdge s).regs = Registers.reset := rfl
@[simp] theorem resetEdge_phase (s : State) : (resetEdge s).phase = .held := rfl
@[simp] theorem resetEdge_stall (s : State) : (resetEdge s).stall = 0 := rfl
@[simp] theorem resetEdge_draws (s : State) : (resetEdge s).draws = s.draws := rfl
@[simp] theorem resetEdge_inbox (s : State) : (resetEdge s).inbox = s.inbox := rfl
@[simp] theorem resetEdge_responses (s : State) : (resetEdge s).responses = s.responses := rfl

/-! ### Ends of a command -/

@[simp] theorem finishOk_regs (data : List Byte) (r : Registers) :
    (finishOk data r).regs = r.withStatus 0x00#8 := rfl
@[simp] theorem finishOk_rsp (data : List Byte) (r : Registers) :
    (finishOk data r).rsp = 0x00#8 :: data := rfl
@[simp] theorem finishWithoutWrite_regs (data : List Byte) (r : Registers) :
    (finishWithoutWrite data r).regs = r := rfl
@[simp] theorem finishWithoutWrite_rsp (data : List Byte) (r : Registers) :
    (finishWithoutWrite data r).rsp = 0x00#8 :: data := rfl
@[simp] theorem raise_regs (e : StatusCode) (r : Registers) :
    (raise e r).regs = r.withStatus e.code := rfl
@[simp] theorem raise_rsp (e : StatusCode) (r : Registers) : (raise e r).rsp = [e.code] := rfl

/-- Recording a result is recording its registers and its response. -/
theorem State.complete_eq_after (s : State) (x : Result) : s.complete x = s.after x.regs x.rsp := rfl

end Sys2Proof.Machine
end

