-- ==== Sys2Proof/Laws/Commands.lean ====
section
/-! SUPPORT. What each command can do, said once: the result of every command as a function of the
registers, and the cases of the frame commands. -/

namespace Sys2Proof.Machine

/-- The result of a command as a function of the registers (R9). -/
def effect (i : Instr) (r : Registers) : Result :=
  match i with
  | .crcInit => finishOk [] (r.withCrc crcSeed)
  | .crcUpdate b => finishOk [] (r.withCrc (crcStep r.crc b))
  | .crcRead => finishOk [lo8 r.crc, hi8 r.crc] r
  | .frmLoad id cmd pay => loadFrame Config.hardware id cmd pay r
  | .frmEncode => emitFrame r
  | .frmDecode raw => checkFrame Config.hardware raw r
  | .frmRead => readFrame r
  | .statRead => finishWithoutWrite [r.status] r

/-- Every command completes, and what it does depends on the registers alone. -/
theorem exec_eq_effect (i : Instr) (s : State) :
    exec i s = .next (s.complete (effect i s.regs)) := by
  cases i <;> rfl

/-- From a next state back to the result recorded in it. -/
theorem exec_next {i : Instr} {s t : State} (h : exec i s = .next t) :
    t = s.complete (effect i s.regs) := by
  rw [exec_eq_effect] at h
  exact (Host.Outcome.next.inj h).symm

/-- Everything FRM.LOAD can do (R126, R128, R170). -/
theorem loadFrame_cases (cfg : Config) (id cmd : OperandWord) (pay : List OperandWord)
    (r : Registers) :
    (cfg.maxPayload < pay.length ∧ loadFrame cfg id cmd pay r = raise .payloadTooLong r.invalidate) ∨
    (pay.length ≤ cfg.maxPayload ∧ allBytesOk (id :: cmd :: pay) = true ∧
      loadFrame cfg id cmd pay r =
        finishOk [] (r.withFrame (operandByte id) (operandByte cmd) (pay.map operandByte))) ∨
    (pay.length ≤ cfg.maxPayload ∧ allBytesOk (id :: cmd :: pay) = false ∧
      loadFrame cfg id cmd pay r = raise .invalidByteValue r.invalidate) := by
  unfold loadFrame
  by_cases long : cfg.maxPayload < pay.length
  · exact .inl ⟨long, if_pos long⟩
  · rw [if_neg long]
    cases ok : allBytesOk (id :: cmd :: pay) with
    | true => exact .inr (.inl ⟨not_lt.mp long, rfl, if_pos rfl⟩)
    | false => exact .inr (.inr ⟨not_lt.mp long, rfl, if_neg (by decide)⟩)

/-- Everything FRM.ENCODE can do (R131). -/
theorem emitFrame_cases (r : Registers) :
    (r.valid = true ∧ emitFrame r =
      finishOk (encodeFrame r.fid r.fcmd r.fpay) (r.withCrc (crc16 (r.fid :: r.fcmd :: r.fpay)))) ∨
    (r.valid = false ∧ emitFrame r = raise .noFrame r) := by
  unfold emitFrame
  cases valid : r.valid with
  | true => exact .inl ⟨rfl, by simp [receivedChecksum_encodeFrame]⟩
  | false => exact .inr ⟨rfl, if_neg (by decide)⟩

/-- Everything FRM.READ can do (R139). -/
theorem readFrame_cases (r : Registers) :
    (r.valid = true ∧ readFrame r =
      finishOk ([r.fid, r.fcmd, lo8 r.flen, hi8 r.flen] ++ r.fpay.take r.flen.toNat
        ++ [lo8 r.fchk, hi8 r.fchk]) r) ∨
    (r.valid = false ∧ readFrame r = raise .noFrame r) := by
  unfold readFrame
  cases valid : r.valid with
  | true => exact .inl ⟨rfl, if_pos rfl⟩
  | false => exact .inr ⟨rfl, if_neg (by decide)⟩

/-- Everything FRM.DECODE can do: one of four early errors, or the checksum stage (R133, R170). -/
theorem checkFrame_cases (cfg : Config) (opds : List OperandWord) (r : Registers) :
    (r.valid = false ∧ checkFrame cfg opds r = raise .noFrame r) ∨
    (r.valid = true ∧ opds.length < 4 ∧ checkFrame cfg opds r = raise .frameTooShort r) ∨
    (r.valid = true ∧ 4 ≤ opds.length ∧ cfg.maxPayload < opds.length - 4 ∧
      checkFrame cfg opds r = raise .payloadTooLong r) ∨
    (r.valid = true ∧ 4 ≤ opds.length ∧ opds.length - 4 ≤ cfg.maxPayload ∧
      allBytesOk opds = false ∧ checkFrame cfg opds r = raise .invalidByteValue r) ∨
    (r.valid = true ∧ 4 ≤ opds.length ∧ opds.length - 4 ≤ cfg.maxPayload ∧
      allBytesOk opds = true ∧ checkFrame cfg opds r = acceptFrame (opds.map operandByte) r) := by
  unfold checkFrame
  cases valid : r.valid with
  | false => exact .inl ⟨rfl, if_pos rfl⟩
  | true =>
    rw [if_neg (by decide)]
    by_cases short : opds.length < 4
    · exact .inr (.inl ⟨rfl, short, if_pos short⟩)
    rw [if_neg short]
    have enough := not_lt.mp short
    by_cases long : cfg.maxPayload < opds.length - 4
    · exact .inr (.inr (.inl ⟨rfl, enough, long, if_pos long⟩))
    rw [if_neg long]
    cases ok : allBytesOk opds with
    | false => exact .inr (.inr (.inr (.inl ⟨rfl, enough, not_lt.mp long, rfl, if_neg (by decide)⟩)))
    | true => exact .inr (.inr (.inr (.inr ⟨rfl, enough, not_lt.mp long, rfl, if_pos rfl⟩)))

/-- Everything the checksum stage can do: CRC is written in each case, the frame in the last one only
(R134, R135, R136). -/
theorem acceptFrame_cases (raw : List Byte) (r : Registers) :
    (∃ e, (e = .checksumMismatch ∨ e = .unexpectedId ∨ e = .unexpectedCommand) ∧
      decodeFrame r.fid r.fcmd raw = .err e ∧
      acceptFrame raw r = raise e (r.withCrc (computedCrc raw))) ∨
    (computedCrc raw = receivedChecksum raw ∧ raw.getD 0 0#8 = r.fid ∧ raw.getD 1 0#8 = r.fcmd ∧
      acceptFrame raw r = finishOk (receivedPayload raw)
        ((r.withCrc (computedCrc raw)).withResponse (receivedPayload raw) (receivedChecksum raw))) := by
  unfold acceptFrame
  rcases decodeFrame_cases r.fid r.fcmd raw with ⟨_, h⟩ | ⟨_, _, h⟩ | ⟨_, _, _, h⟩ | ⟨sum, id, cmd, h⟩
  · exact .inl ⟨_, .inl rfl, h, by rw [h]⟩
  · exact .inl ⟨_, .inr (.inl rfl), h, by rw [h]⟩
  · exact .inl ⟨_, .inr (.inr rfl), h, by rw [h]⟩
  · exact .inr ⟨sum, id, cmd, by rw [h]⟩

/-- Whatever a command does, its response is legal (R67). -/
theorem legalResponse_finishOk (data : List Byte) (r : Registers) :
    LegalResponse (finishOk data r).rsp :=
  ⟨0x00#8, data, rfl, by decide, fun h => absurd rfl h⟩

theorem legalResponse_raise (e : StatusCode) (r : Registers) : LegalResponse (raise e r).rsp :=
  ⟨e.code, [], rfl, by cases e <;> decide, fun _ => rfl⟩

end Sys2Proof.Machine
end

