-- ==== Sys2Proof/Laws/Encoding.lean ====
section
/-! SUPPORT. The fields of a command word built from its parts, and what decoding demands. -/

namespace Sys2Proof

/-- Every bit of a built command word: IMM16 below, OP above RSV = 0. -/
theorem commandWord_getLsbD (op : Byte) (imm : Half) (k : Nat) :
    (commandWord op imm).getLsbD k =
      if k < 16 then imm.getLsbD k else if k < 24 then false else op.getLsbD (k - 24) := by
  unfold commandWord
  rw [BitVec.getLsbD_append, BitVec.getLsbD_append]
  by_cases low : k < 16
  · simp only [low, if_true, show k < 8 + 16 from by omega]
  · by_cases mid : k < 24
    · simp [low, mid]
    · simp [low, mid]

@[simp] theorem opField_commandWord (op : Byte) (imm : Half) : opField (commandWord op imm) = op := by
  apply BitVec.eq_of_getLsbD_eq
  intro k hk
  simp only [opField, BitVec.getLsbD_extractLsb', commandWord_getLsbD, hk,
    show ¬ 24 + k < 16 from by omega, show ¬ 24 + k < 24 from by omega, if_false,
    Nat.add_sub_cancel_left, decide_true, Bool.true_and]

@[simp] theorem rsvField_commandWord (op : Byte) (imm : Half) :
    rsvField (commandWord op imm) = 0x00#8 := by
  apply BitVec.eq_of_getLsbD_eq
  intro k hk
  simp only [rsvField, BitVec.getLsbD_extractLsb', commandWord_getLsbD,
    show ¬ 16 + k < 16 from by omega, show 16 + k < 24 from by omega, if_false, if_true,
    Bool.and_false, BitVec.getLsbD_zero]

@[simp] theorem immField_commandWord (op : Byte) (imm : Half) :
    immField (commandWord op imm) = imm := by
  apply BitVec.eq_of_getLsbD_eq
  intro k hk
  simp only [immField, BitVec.getLsbD_extractLsb', commandWord_getLsbD, hk, Nat.zero_add, if_true,
    decide_true, Bool.true_and]

/-- A word with RSV = 0x00 is built from its fields. -/
theorem commandWord_fields (w : CommandWord) (h : rsvField w = 0x00#8) :
    commandWord (opField w) (immField w) = w := by
  apply BitVec.eq_of_getLsbD_eq
  intro k hk
  rw [commandWord_getLsbD]
  by_cases low : k < 16
  · simp only [low, if_true, immField, BitVec.getLsbD_extractLsb', Nat.zero_add, decide_true,
      Bool.true_and]
  · by_cases mid : k < 24
    · have zero : (rsvField w).getLsbD (k - 16) = false := by rw [h]; simp
      simp only [rsvField, BitVec.getLsbD_extractLsb', show k - 16 < 8 from by omega, decide_true,
        Bool.true_and, show 16 + (k - 16) = k from by omega] at zero
      simp only [low, mid, if_false, if_true, zero]
    · simp only [low, mid, if_false, opField, BitVec.getLsbD_extractLsb',
        show k - 24 < 8 from by omega, decide_true, Bool.true_and,
        show 24 + (k - 24) = k from by omega]

/-- Decoding a built command word is the opcode map on its fields. -/
@[simp] theorem decodeCommand_commandWord (op : Byte) (imm : Half) :
    decodeCommand (commandWord op imm) = opcodeMap op imm := by
  simp [decodeCommand]

/-- Every command the opcode map can give, with the fields that select it (R62, R68). -/
theorem opcodeMap_cases {op : Byte} {imm : Half} {c : Command} (h : opcodeMap op imm = some c) :
    (op = 0x01#8 ∧ imm = 0x0000#16 ∧ c = .crcInit) ∨
    (op = 0x02#8 ∧ imm.extractLsb' 8 8 = 0x00#8 ∧ c = .crcUpdate (imm.extractLsb' 0 8)) ∨
    (op = 0x03#8 ∧ imm = 0x0000#16 ∧ c = .crcRead) ∨
    (op = 0x10#8 ∧ c = .frmLoad imm) ∨
    (op = 0x11#8 ∧ imm = 0x0000#16 ∧ c = .frmEncode) ∨
    (op = 0x12#8 ∧ c = .frmDecode imm) ∨
    (op = 0x13#8 ∧ imm = 0x0000#16 ∧ c = .frmRead) ∨
    (op = 0x20#8 ∧ imm = 0x0000#16 ∧ c = .statRead) := by
  unfold opcodeMap whenZero updateCommand at h
  split_ifs at h <;> simp_all

/-- The zero-extended byte of CRC.UPDATE meets the row's condition. -/
@[simp] theorem updateCommand_byte (b : Byte) :
    updateCommand (0x00#8 ++ b) = some (.crcUpdate b) := by
  have high : (0x00#8 ++ b : Half).extractLsb' 8 8 = 0x00#8 := by
    apply BitVec.eq_of_getLsbD_eq
    intro k hk
    simp only [BitVec.getLsbD_extractLsb', BitVec.getLsbD_append, hk]
    simp
  have low : (0x00#8 ++ b : Half).extractLsb' 0 8 = b := by
    apply BitVec.eq_of_getLsbD_eq
    intro k hk
    simp only [BitVec.getLsbD_extractLsb', BitVec.getLsbD_append, hk, Nat.zero_add]
    simp
  unfold updateCommand
  rw [high, low]
  rfl

/-- A command without operand words decodes only from an empty operand list. -/
theorem noOperands_ok {i j : Instr} {opds : List OperandWord} (h : noOperands i opds = .ok j) :
    opds = [] ∧ j = i := by
  cases opds with
  | nil => exact ⟨rfl, (Except.ok.inj h).symm⟩
  | cons u us => cases h

/-- FRM.LOAD decodes only from `n + 2` operand words. -/
theorem loadOperands_ok {n : Half} {j : Instr} {opds : List OperandWord}
    (h : loadOperands n opds = .ok j) :
    ∃ id cmd pay, opds = id :: cmd :: pay ∧ pay.length = n.toNat ∧ j = .frmLoad id cmd pay := by
  match opds, h with
  | id :: cmd :: pay, h =>
    simp only [loadOperands] at h
    split at h
    · exact ⟨id, cmd, pay, rfl, ‹_›, (Except.ok.inj h).symm⟩
    · cases h

/-- FRM.DECODE decodes only from `L` operand words. -/
theorem frameOperands_ok {len : Half} {j : Instr} {opds : List OperandWord}
    (h : frameOperands len opds = .ok j) : opds.length = len.toNat ∧ j = .frmDecode opds := by
  unfold frameOperands at h
  split at h
  · exact ⟨‹_›, (Except.ok.inj h).symm⟩
  · cases h

/-- With as many operand words as it needs, a command decodes. -/
theorem withOperands_of_need (c : Command) (opds : List OperandWord) (h : opds.length = c.need) :
    ∃ i, c.withOperands opds = .ok i := by
  cases c with
  | frmLoad n =>
    match opds, h with
    | id :: cmd :: pay, h =>
      exact ⟨.frmLoad id cmd pay, if_pos (by simpa [Command.need] using h)⟩
  | frmDecode len => exact ⟨.frmDecode opds, if_pos h⟩
  | crcInit => exact ⟨_, by rw [List.length_eq_zero_iff.mp h]; rfl⟩
  | crcUpdate b => exact ⟨_, by rw [List.length_eq_zero_iff.mp h]; rfl⟩
  | crcRead => exact ⟨_, by rw [List.length_eq_zero_iff.mp h]; rfl⟩
  | frmEncode => exact ⟨_, by rw [List.length_eq_zero_iff.mp h]; rfl⟩
  | frmRead => exact ⟨_, by rw [List.length_eq_zero_iff.mp h]; rfl⟩
  | statRead => exact ⟨_, by rw [List.length_eq_zero_iff.mp h]; rfl⟩

/-- With any other number of operand words it is refused. -/
theorem withOperands_of_not_need (c : Command) (opds : List OperandWord) (h : opds.length ≠ c.need) :
    c.withOperands opds = .error .operandCount := by
  cases c with
  | frmLoad n =>
    match opds, h with
    | [], _ => rfl
    | [_], _ => rfl
    | id :: cmd :: pay, h => exact if_neg (by simpa [Command.need] using h)
  | frmDecode len => exact if_neg h
  | crcInit => cases opds with | nil => exact absurd rfl h | cons u us => rfl
  | crcUpdate b => cases opds with | nil => exact absurd rfl h | cons u us => rfl
  | crcRead => cases opds with | nil => exact absurd rfl h | cons u us => rfl
  | frmEncode => cases opds with | nil => exact absurd rfl h | cons u us => rfl
  | frmRead => cases opds with | nil => exact absurd rfl h | cons u us => rfl
  | statRead => cases opds with | nil => exact absurd rfl h | cons u us => rfl

/-- What decoding a transaction can answer: with the right operand count the command or IllegalOp, with
any other count a refusal (R65, R66, R151). -/
theorem decode_cases (t : Transaction) :
    (t.operands.length = need t.word ∧ (∃ c, decodeCommand t.word = some c) ∧
      ∃ i, decode t = .ok i) ∨
    (t.operands = [] ∧ decodeCommand t.word = none ∧ need t.word = 0 ∧ decode t = .error .illegalOp) ∨
    (t.operands.length ≠ need t.word ∧ decode t = .error .operandCount) := by
  unfold decode need
  cases decodeCommand t.word with
  | none =>
    by_cases empty : t.operands = []
    · simp [empty]
    · simp [empty]
  | some c =>
    by_cases count : t.operands.length = c.need
    · exact .inl ⟨count, ⟨c, rfl⟩, withOperands_of_need c _ count⟩
    · exact .inr (.inr ⟨count, withOperands_of_not_need c _ count⟩)

end Sys2Proof
end

