-- ==== Sys2Proof/Laws/PerInstr.lean ====
section
/-! SUPPORT. The family `EncodesLegal`: the words of a well-formed command are a legal command word and
as many operand words as it takes (30_encoding.md R65, R68). -/

namespace Sys2Proof.Laws.EncodesLegal

/-- The encoding of `i` is a legal word with `need` operand words. -/
def Statement (i : Instr) : Prop :=
  i.wellFormed = true →
    legalWord (encode i).word = true ∧ (encode i).operands.length = need (encode i).word

/-- The statement follows from the command that the word selects. -/
theorem of_command {i : Instr} (c : Command) (word : decodeCommand (encode i).word = some c)
    (count : (encode i).operands.length = c.need) :
    legalWord (encode i).word = true ∧ (encode i).operands.length = need (encode i).word := by
  simp [legalWord, need, word, count]

theorem crcInit : Statement .crcInit :=
  fun _ => of_command .crcInit (decodeCommand_commandWord _ _) rfl

theorem crcUpdate (b : Byte) : Statement (.crcUpdate b) :=
  fun _ => of_command (.crcUpdate b)
    ((decodeCommand_commandWord _ _).trans (updateCommand_byte b)) rfl

theorem crcRead : Statement .crcRead :=
  fun _ => of_command .crcRead (decodeCommand_commandWord _ _) rfl

theorem frmLoad (id cmd : OperandWord) (pay : List OperandWord) : Statement (.frmLoad id cmd pay) := by
  intro wf
  have fits : pay.length ≤ 65535 := of_decide_eq_true wf
  refine of_command (.frmLoad (BitVec.ofNat 16 pay.length)) (decodeCommand_commandWord _ _) ?_
  simp only [encode, List.length_cons, Command.need, BitVec.toNat_ofNat]
  omega

theorem frmEncode : Statement .frmEncode :=
  fun _ => of_command .frmEncode (decodeCommand_commandWord _ _) rfl

theorem frmDecode (raw : List OperandWord) : Statement (.frmDecode raw) := by
  intro wf
  have fits : raw.length ≤ 65535 := of_decide_eq_true wf
  refine of_command (.frmDecode (BitVec.ofNat 16 raw.length)) (decodeCommand_commandWord _ _) ?_
  simp only [encode, Command.need, BitVec.toNat_ofNat]
  omega

theorem frmRead : Statement .frmRead :=
  fun _ => of_command .frmRead (decodeCommand_commandWord _ _) rfl

theorem statRead : Statement .statRead :=
  fun _ => of_command .statRead (decodeCommand_commandWord _ _) rfl

end Sys2Proof.Laws.EncodesLegal
end

