-- ==== Sys2Proof/Laws/Step.lean ====
section
/-! SUPPORT. What a transaction, an edge and a step can do, said once. -/

namespace Sys2Proof.Machine

/-! ### Transactions -/

theorem transact_ok {t : Transaction} {i : Instr} (h : decode t = .ok i) (s : State) :
    transact t s = exec i s := by
  unfold transact
  rw [h]

theorem transact_illegal {t : Transaction} (h : decode t = .error .illegalOp) (s : State) :
    transact t s = .next (takeIllegalOp s) := by
  unfold transact
  rw [h]

theorem transact_count {t : Transaction} (h : decode t = .error .operandCount) (s : State) :
    transact t s = .refused .operandCount := by
  unfold transact
  rw [h]

/-- A well-formed transaction records one result that depends on the registers alone; any other is
refused (R66). -/
theorem transact_cases (t : Transaction) :
    (t.operands.length = need t.word ∧
      ∃ f : Registers → Result, ∀ s, transact t s = .next (s.complete (f s.regs))) ∨
    (t.operands.length ≠ need t.word ∧ ∀ s, transact t s = .refused .operandCount) := by
  rcases decode_cases t with ⟨count, -, i, h⟩ | ⟨empty, -, zero, h⟩ | ⟨count, h⟩
  · exact .inl ⟨count, effect i, fun s => (transact_ok h s).trans (exec_eq_effect i s)⟩
  · exact .inl ⟨by rw [empty, zero]; rfl, raise .illegalOp, fun s => transact_illegal h s⟩
  · exact .inr ⟨count, fun s => transact_count h s⟩

/-- An idle block accepts a transaction as it stands. -/
theorem issue_idle {s : State} (h : s.phase = .idle) (t : Transaction) : issue t s = transact t s := by
  unfold issue settle
  rw [h]

/-! ### Steps -/

theorem step_nil {s : State} (h : s.inbox = []) : step s = .next s := by
  unfold step
  rw [h]

theorem step_transaction {s : State} {t : Transaction} {rest : List HostInput}
    (h : s.inbox = .transaction t :: rest) : step s = issue t { s with inbox := rest } := by
  unfold step
  rw [h]

theorem step_clockEdge {s : State} {p : PortIn} {rest : List HostInput}
    (h : s.inbox = .clockEdge p :: rest) : step s = portEdge p { s with inbox := rest } := by
  unfold step
  rw [h]

/-- Issuing a transaction to an idle block is carrying it out. -/
theorem step_issuing {s : State} (h : s.phase = .idle) (w : CommandWord) (opds : List OperandWord) :
    step (s.issuing w opds) = transact ⟨w, opds⟩ s :=
  (step_transaction rfl).trans (issue_idle h _)

/-! ### Edges -/

theorem portEdge_reset {p : PortIn} (h : p.rstN = false) (s : State) :
    portEdge p s = .next (resetEdge s) :=
  if_pos h

theorem portEdge_stall {p : PortIn} (h : p.rstN = true) {s : State} (stall : s.live = false) :
    portEdge p s = .next { s with stall := s.stall - 1 } := by
  unfold portEdge
  rw [h, stall]
  rfl

theorem portEdge_live {p : PortIn} (h : p.rstN = true) {s : State} (live : s.live = true) :
    portEdge p s = transferEdge p s := by
  unfold portEdge
  rw [h, live]
  rfl

/-- Carrying out a well-formed transaction at the ports: the registers change all at once, and its whole
response is on its way (R76). -/
theorem perform_next {t : Transaction} {f : Registers → Result}
    (h : ∀ s, transact t s = .next (s.complete (f s.regs))) (s : State) :
    perform t s = .next ({ s with regs := (f s.regs).regs }.enter (.sending [] (f s.regs).rsp)) := by
  unfold perform
  rw [h]
  simp [State.complete, State.enter]

end Sys2Proof.Machine
end

