-- ==== Sys2Proof/Tests/Slice0.lean ====
section
/-! SUPPORT. The model's own tests. Expected values are those of spec/95_test_vectors.md (the row is named
in each docstring) or are written out from the encoding tables of 30_encoding.md; then one witness for
the hypotheses of each statement that has some. -/

namespace Sys2Proof.Tests

open Sys2Proof.Machine

/-! ## WellFormed: ill-formed terms are refused -/

/-- A payload of 65536 words has no length in IMM16 (R69). -/
theorem test_load_too_long_is_ill_formed :
    Instr.wellFormed (.frmLoad 0#16 0#16 (List.replicate 65536 0#16)) = false := by
  simp only [Instr.wellFormed, List.length_replicate]
  decide

/-- A received frame of 65536 words has no length in IMM16 (R69). -/
theorem test_decode_too_long_is_ill_formed :
    Instr.wellFormed (.frmDecode (List.replicate 65536 0#16)) = false := by
  simp only [Instr.wellFormed, List.length_replicate]
  decide

/-! ## Decoding: words written out from R61 and R62 (OP, RSV, IMM16) -/

theorem test_decode_crc_init :
    decode ⟨0b00000001_00000000_0000000000000000#32, []⟩ = .ok .crcInit := by decide

theorem test_decode_crc_update :
    decode ⟨0b00000010_00000000_0000000010100101#32, []⟩ = .ok (.crcUpdate 0xA5#8) := by decide

theorem test_decode_crc_read :
    decode ⟨0b00000011_00000000_0000000000000000#32, []⟩ = .ok .crcRead := by decide

theorem test_decode_frm_load :
    decode ⟨0b00010000_00000000_0000000000000001#32, [0x001E#16, 0x0021#16, 0x0103#16]⟩ =
      .ok (.frmLoad 0x001E#16 0x0021#16 [0x0103#16]) := by decide

theorem test_decode_frm_encode :
    decode ⟨0b00010001_00000000_0000000000000000#32, []⟩ = .ok .frmEncode := by decide

theorem test_decode_frm_decode :
    decode ⟨0b00010010_00000000_0000000000000010#32, [0x0100#16, 0x0021#16]⟩ =
      .ok (.frmDecode [0x0100#16, 0x0021#16]) := by decide

theorem test_decode_frm_read :
    decode ⟨0b00010011_00000000_0000000000000000#32, []⟩ = .ok .frmRead := by decide

theorem test_decode_stat_read :
    decode ⟨0b00100000_00000000_0000000000000000#32, []⟩ = .ok .statRead := by decide

/-- Rows CR7, CR8, IL1 to IL7: illegal words. -/
theorem test_decode_illegal_words :
    [0x02000100#32, 0x01010000#32, 0x00000000#32, 0x14000000#32, 0xFFFFFFFF#32, 0x20000001#32,
      0x13000001#32, 0x10010000#32, 0x12010004#32].map (fun w => decode ⟨w, []⟩) =
    List.replicate 9 (.error .illegalOp) := by decide

/-- R66: a missing operand word, and one too many. -/
theorem test_decode_wrong_count :
    decode ⟨0x10000001#32, [0#16, 0#16]⟩ = .error .operandCount ∧
    decode ⟨0x10000000#32, [0#16]⟩ = .error .operandCount ∧
    decode ⟨0x12000001#32, [0#16, 0#16]⟩ = .error .operandCount ∧
    decode ⟨0x03000000#32, [0#16]⟩ = .error .operandCount ∧
    decode ⟨0x00000000#32, [0#16]⟩ = .error .operandCount := by decide

/-- The rows of opcode_table.json do not overlap: each row's pattern belongs to its own row only. -/
theorem test_rows_select_their_patterns :
    opcodeRows.map (fun row => (opcodeRows.filter fun other => other.selects row.pattern).length) =
      List.replicate 8 1 := by decide

/-- The host's numbering: operand words count on from bit 32. -/
theorem test_table_word :
    decodeTableWord 32 0x03000000 = some .crcRead ∧
    decodeTableWord 32 0x10000000 = some (.frmLoad 0#16 0#16 []) ∧
    decodeTableWord 80 0x00030021001E10000001 =
      some (.frmLoad 0x001E#16 0x0021#16 [0x0003#16]) ∧
    decodeTableWord 80 0x00030021001E12000003 =
      some (.frmDecode [0x001E#16, 0x0021#16, 0x0003#16]) ∧
    decodeTableWord 32 0x00000000 = none := by decide

/-- A step runs the placed word as the first instruction after reset. -/
theorem test_with_fetch_word :
    decodeTableWord 32 0x20000000 = some .statRead ∧
    (match step (State.reset.withFetchWord 32 0x20000000) with
      | .next t => t.responses
      | .fault _ => []
      | .refused _ => []) = [[0x00#8, 0x00#8]] := by decide

/-! ## The CRC (95_test_vectors.md sections 2.1 to 2.3) -/

/-- Section 2.1. -/
theorem test_crc_step :
    [(0xFFFF#16, 0x00#8), (0xFFFF#16, 0x80#8), (0xFFFF#16, 0xA5#8), (0x0001#16, 0x00#8),
      (0x8000#16, 0x00#8), (0xA001#16, 0x00#8), (0x1234#16, 0x00#8), (0x0000#16, 0xFF#8)].map
      (fun x => crcStep x.1 x.2) =
    [0x40BF#16, 0xE0BE#16, 0x3B7F#16, 0xC0C1#16, 0x0080#16, 0xC061#16, 0xD713#16, 0x4040#16] := by
  decide +kernel

/-- Section 2.2, the single-bit entries and the last row of the table T. -/
theorem test_crc_table :
    [0x01#8, 0x02#8, 0x04#8, 0x08#8, 0x10#8, 0x20#8, 0x40#8, 0x80#8].map crcTable =
      [0xC0C1#16, 0xC181#16, 0xC301#16, 0xC601#16, 0xCC01#16, 0xD801#16, 0xF001#16, 0xA001#16] ∧
    [0xF8#8, 0xF9#8, 0xFA#8, 0xFB#8, 0xFC#8, 0xFD#8, 0xFE#8, 0xFF#8].map crcTable =
      [0x8201#16, 0x42C0#16, 0x4380#16, 0x8341#16, 0x4100#16, 0x81C1#16, 0x8081#16, 0x4040#16] := by
  decide +kernel

/-- Section 2.3: the empty sequence, a Modbus request, and the collision of R110. -/
theorem test_crc16 :
    crc16 [] = 0xFFFF#16 ∧
    crc16 [0x11#8, 0x03#8, 0x00#8, 0x6B#8, 0x00#8, 0x03#8] = 0x8776#16 ∧
    crc16 [0x00#8, 0x00#8] = 0xB001#16 ∧
    crc16 [0xFF#8, 0xFF#8, 0xFF#8, 0xFF#8] = 0xB001#16 := by
  decide +kernel

/-- Rows EN6, EN7 and EN10: encoded frames. -/
theorem test_encode_frame :
    encodeFrame 0x01#8 0x03#8 [0x00#8, 0x00#8, 0x00#8, 0x01#8] =
      [0x01#8, 0x03#8, 0x00#8, 0x00#8, 0x00#8, 0x01#8, 0x84#8, 0x0A#8] ∧
    encodeFrame 0x05#8 0x30#8 [0x78#8, 0x56#8, 0x34#8, 0x12#8] =
      [0x05#8, 0x30#8, 0x78#8, 0x56#8, 0x34#8, 0x12#8, 0x2E#8, 0x37#8] ∧
    encodeFrame 0x80#8 0x14#8 [0xE8#8, 0x03#8, 0x00#8, 0x00#8] =
      [0x80#8, 0x14#8, 0xE8#8, 0x03#8, 0x00#8, 0x00#8, 0xEA#8, 0x78#8] := by
  decide +kernel

/-! ## One step of each command (95_test_vectors.md sections 2.4 to 2.7) -/

/-- The registers S1 of section 2.5: the frame 1E 21 03. -/
def loadedRegs : Registers :=
  { Registers.reset with
    valid := true, fid := 0x1E#8, fcmd := 0x21#8, flen := 1#16, fpay := [0x03#8], fchk := 0x9749#16 }

/-- A state with the registers S1. -/
def loaded : State := { State.reset with regs := loadedRegs }

/-- What a host sees of one transaction: the registers after it and its response. -/
def answer (s : State) (w : CommandWord) (opds : List OperandWord) : Option (Registers × List (List Byte)) :=
  match step (s.issuing w opds) with
  | .next t => some (t.regs, t.responses)
  | .fault _ => none
  | .refused _ => none

/-- Row CR3's end then CR5: CRC.INIT replaces a running value. -/
theorem test_crc_init :
    answer { State.reset with regs := { Registers.reset with crc := 0x483F#16 } } 0x01000000#32 [] =
      some (Registers.reset, [[0x00#8]]) := by decide +kernel

/-- Row CR3. -/
theorem test_crc_update :
    answer State.reset 0x0200001E#32 [] =
      some ({ Registers.reset with crc := 0x483F#16 }, [[0x00#8]]) := by decide +kernel

/-- Row CR7: an immediate above FF is not truncated. -/
theorem test_crc_update_illegal :
    answer State.reset 0x02000100#32 [] =
      some ({ Registers.reset with status := 0x08#8 }, [[0x08#8]]) := by decide +kernel

/-- Row CR4. -/
theorem test_crc_read :
    answer { State.reset with regs := { Registers.reset with crc := 0x483F#16, status := 0x08#8 } }
        0x03000000#32 [] =
      some ({ Registers.reset with crc := 0x483F#16 }, [[0x00#8, 0x3F#8, 0x48#8]]) := by decide +kernel

/-- Row EN1: the load from RST. -/
theorem test_frm_load :
    answer State.reset 0x10000001#32 [0x001E#16, 0x0021#16, 0x0003#16] =
      some (loadedRegs, [[0x00#8]]) := by decide +kernel

/-- Row LD4: a payload word out of range clears FRM_VALID and keeps the frame registers. -/
theorem test_frm_load_bad_byte :
    answer loaded 0x10000001#32 [0x0001#16, 0x0002#16, 0x01FF#16] =
      some ({ loadedRegs with valid := false, status := 0x01#8 }, [[0x01#8]]) := by decide +kernel

/-- Row LD6: PayloadTooLong wins over InvalidByteValue. -/
theorem test_frm_load_too_long :
    answer loaded 0x10000100#32 (List.replicate 258 0x0100#16) =
      some ({ loadedRegs with valid := false, status := 0x06#8 }, [[0x06#8]]) := by decide +kernel

/-- Row EN1: the encode. -/
theorem test_frm_encode :
    answer loaded 0x11000000#32 [] =
      some ({ loadedRegs with crc := 0x9749#16 },
        [[0x00#8, 0x1E#8, 0x21#8, 0x03#8, 0x49#8, 0x97#8]]) := by decide +kernel

/-- Program P4, step 1. -/
theorem test_frm_encode_no_frame :
    answer State.reset 0x11000000#32 [] =
      some ({ Registers.reset with status := 0x07#8 }, [[0x07#8]]) := by decide +kernel

/-- Row DC1. -/
theorem test_frm_decode :
    answer loaded 0x12000006#32 [0x001E#16, 0x0021#16, 0x0003#16, 0x0001#16, 0x0097#16, 0x0036#16] =
      some ({ loadedRegs with
          crc := 0x3697#16, flen := 2#16, fpay := [0x03#8, 0x01#8], fchk := 0x3697#16 },
        [[0x00#8, 0x03#8, 0x01#8]]) := by decide +kernel

/-- Row DC7: UnexpectedId wins over UnexpectedCommand, CRC is written and the request is kept. -/
theorem test_frm_decode_wrong_id :
    answer loaded 0x12000006#32 [0x001F#16, 0x0022#16, 0x0003#16, 0x0001#16, 0x0066#16, 0x00CA#16] =
      some ({ loadedRegs with crc := 0xCA66#16, status := 0x03#8 }, [[0x03#8]]) := by decide +kernel

/-- Row RD2. -/
theorem test_frm_read :
    answer loaded 0x13000000#32 [] =
      some (loadedRegs, [[0x00#8, 0x1E#8, 0x21#8, 0x01#8, 0x00#8, 0x03#8, 0x49#8, 0x97#8]]) := by
  decide +kernel

/-- Row SR2. -/
theorem test_stat_read :
    answer { loaded with regs := { loadedRegs with status := 0x02#8 } } 0x20000000#32 [] =
      some ({ loadedRegs with status := 0x02#8 }, [[0x00#8, 0x02#8]]) := by decide +kernel

/-- Row IL6: an illegal word takes no operand words and keeps the frame. -/
theorem test_illegal_word :
    answer loaded 0x10010000#32 [] =
      some ({ loadedRegs with status := 0x08#8 }, [[0x08#8]]) := by decide +kernel

/-! ## The assembler (R74, R75) -/

/-- The text of row LD3, and of `crc.compute` over two bytes. -/
theorem test_assemble :
    assemble "frm.load 0x01, -1".toList = .ok [⟨0x10000000#32, [0x0001#16, 0xFFFF#16]⟩] ∧
    assemble "crc.compute 49, 0x32".toList =
      .ok [⟨0x01000000#32, []⟩, ⟨0x02000031#32, []⟩, ⟨0x02000032#32, []⟩, ⟨0x03000000#32, []⟩] := by
  decide +kernel

theorem test_assemble_refuses :
    assemble "crc.update 256".toList = .error .literalOutOfRange ∧
    assemble "CRC.READ".toList = .error .notALine := by decide +kernel

/-! ## The ports (R60, R76) -/

/-- The inputs of an edge on which the host offers nothing. -/
def quiet : PortIn := ⟨true, false, 0x00000000#32, false, 0x0000#16, false⟩

/-- A block that has taken FRM.DECODE with L = 3 and one operand word. -/
def waiting : State := { loaded with phase := .taking 0x12000003#32 [0x001E#16] }

/-- A block that still has two beats of CRC.READ's response to send. -/
def draining : State := { loaded with phase := .sending [0x00#8] [0xFF#8, 0xFF#8] }

/-- A command word that needs operand words is accepted, and step 2 of R76 begins. -/
theorem test_port_accepts_command :
    (match portEdge { quiet with cmdValid := true, cmdData := 0x12000003#32 } loaded with
      | .next t => t.phase
      | .fault _ => .held
      | .refused _ => .held) = .taking 0x12000003#32 [] := by decide

/-- The last operand word: the transaction is applied, and its response (row DC10) is on its way. -/
theorem test_port_last_operand :
    (match portEdge { quiet with opdValid := true, opdData := 0x0003#16 }
        { loaded with phase := .taking 0x12000003#32 [0x001E#16, 0x0021#16] } with
      | .next t => (t.phase, t.regs.status)
      | .fault _ => (.held, 0xFF#8)
      | .refused _ => (.held, 0xFF#8)) = (.sending [] [0x05#8], 0x05#8) := by decide

/-- The outputs in the middle of a response and at its last beat. -/
theorem test_port_outputs :
    portOut draining = ⟨false, false, true, 0xFF#8, false⟩ ∧
    portOut { draining with phase := .sending [0x00#8, 0xFF#8] [0xFE#8] } =
      ⟨false, false, true, 0xFE#8, true⟩ := by decide

/-! ## Witnesses: the hypotheses of each statement can be met -/

theorem loadedRegs_frameInv : loadedRegs.FrameInv Config.hardware :=
  ⟨by decide, by decide, fun _ => by decide +kernel⟩

theorem loaded_inv : loaded.Inv :=
  ⟨⟨by decide, loadedRegs_frameInv⟩, trivial, by intro rsp h; cases h⟩

theorem witness_DecodeOfEncodeGivesTheCommand :
    Instr.wellFormed .crcInit = true ∧
    Instr.wellFormed (.frmLoad 0#16 0#16 (List.replicate 65535 0#16)) = true ∧
    Instr.wellFormed (.frmDecode (List.replicate 65535 0#16)) = true := by
  simp only [Instr.wellFormed, List.length_replicate]
  decide

theorem witness_EncodeOfDecodeGivesTheTransaction :
    decode ⟨0x020000FF#32, []⟩ = .ok (.crcUpdate 0xFF#8) ∧
    decode ⟨0x12000000#32, []⟩ = .ok (.frmDecode []) := by decide

theorem witness_LegalWordsMeetTheThreeConditions :
    legalWord 0x02000100#32 = false ∧ legalWord 0x020000FF#32 = true ∧
    legalWord 0x1000FFFF#32 = true ∧ State.reset.phase = .idle := by decide

theorem witness_OpcodeTableRowsAreTheLegalWords :
    (⟨"FRM.LOAD", 0x10000000#32, 0xFFFF0000#32⟩ : OpcodeRow) ∈ opcodeRows ∧
    OpcodeRow.selects ⟨"FRM.LOAD", 0x10000000#32, 0xFFFF0000#32⟩ 0x1000FFFF#32 = true ∧
    decodeCommand 0x1000FFFF#32 = some (.frmLoad 0xFFFF#16) := by decide

theorem witness_CommandWordFixesTheOperandCount :
    (legalWord 0x1000FFFF#32 = true ∧ (0x1000FFFF#32).extractLsb' 24 8 = 0x10#8) ∧
    (legalWord 0x12000000#32 = true ∧ (0x12000000#32).extractLsb' 24 8 = 0x12#8) ∧
    ((0x20000000#32).extractLsb' 24 8 ≠ 0x10#8 ∧ (0x20000000#32).extractLsb' 24 8 ≠ 0x12#8) ∧
    legalWord 0x10010000#32 = false := by decide

/-- The hypotheses of `TakesOperandsFirst`: a first word accepted, and the second of three. -/
theorem witness_TakesOperandsFirst :
    (loaded.phase = .idle ∧
      ({ quiet with cmdValid := true, cmdData := 0x10000001#32 } : PortIn).cmdValid = true ∧
      0 < need 0x10000001#32) ∧
    (waiting.phase = .taking 0x12000003#32 [0x001E#16] ∧ quiet.rstN = true ∧
      [0x001E#16].length + 1 < need 0x12000003#32) := by decide

theorem witness_OperandWordsOfIntegersAndBytes :
    ((-32768 : Int) ≤ -32768 ∧ (-32768 : Int) ≤ 65535) ∧
    ((-32769 : Int) < -32768 ∨ (65535 : Int) < -32769) ∧
    byteOk 0x00FF#16 = true ∧ byteOk 0x0100#16 = false := by decide

theorem witness_StreamedCrcIsCrc16OfTheBytes :
    ∀ i ∈ [Instr.crcUpdate 0x1E#8, .frmLoad 0x0001#16 0x0010#16 [], .crcRead, .crcUpdate 0x21#8],
      keepsStream i = true := by decide

theorem witness_SingleWrongByteIsDetected :
    (0 < [0x1E#8].length ∧ 0x1F#8 ≠ [0x1E#8].getD 0 0#8) ∧
    (3 < (encodeFrame 0xFF#8 0xFF#8 []).length ∧
      0x01#8 ≠ (encodeFrame 0xFF#8 0xFF#8 []).getD 3 0#8) := by decide +kernel

theorem witness_OneWrongByteGivesChecksumMismatch :
    0 < (encodeFrame 0xFF#8 0xFF#8 []).length ∧
      0x01#8 ≠ (encodeFrame 0xFF#8 0xFF#8 []).getD 0 0#8 := by decide +kernel

theorem witness_CrcInitSetsTheSeed :
    (0x01000001#32).extractLsb' 24 8 = 0x01#8 ∧ (0x01000001#32) ≠ 0x01000000#32 := by decide

theorem witness_CrcUpdateFoldsOneByte :
    (0x02000100#32).extractLsb' 24 8 = 0x02#8 ∧ (0x02000100#32).extractLsb' 8 8 ≠ 0x00#8 ∧
    (0x02010000#32).extractLsb' 24 8 = 0x02#8 ∧ (0x02010000#32).extractLsb' 16 8 ≠ 0x00#8 := by decide

theorem witness_CrcReadReturnsLowByteFirst :
    (0x03010000#32).extractLsb' 24 8 = 0x03#8 ∧ (0x03010000#32) ≠ 0x03000000#32 := by decide

/-- The high half of every word of a list that holds byte words only. -/
theorem highByte_replicate (n : Nat) : ∀ u ∈ List.replicate n 0x00AA#16, u.extractLsb' 8 8 = 0x00#8 := by
  intro u hu
  rw [List.eq_of_mem_replicate hu]
  decide

theorem witness_FrmLoadStoresOrRejectsTheFrame :
    ((List.replicate 255 0x00AA#16).length ≤ 255 ∧
      ∀ u ∈ List.replicate 255 0x00AA#16, u.extractLsb' 8 8 = 0x00#8) ∧
    255 < (List.replicate 256 0x00AA#16).length ∧
    (∃ u ∈ [0x0001#16, 0xFFFF#16], u.extractLsb' 8 8 ≠ 0x00#8) ∧
    (List.replicate 65535 0x00AA#16).length ≤ 65535 := by
  refine ⟨⟨?_, highByte_replicate 255⟩, ?_, ⟨0xFFFF#16, .tail _ (.head _), by decide⟩, ?_⟩ <;>
    (rw [List.length_replicate] <;> omega)

theorem witness_SuccessfulLoadMakesTheFrameConsistent :
    (loadFrame Config.hardware 0x001E#16 0x0021#16 [0x0003#16] Registers.reset).rsp = [0x00#8] := by
  decide +kernel

theorem witness_FailedLoadOnlyClearsValid :
    ∃ t, exec (.frmLoad 0x0100#16 0x0010#16 []) loaded = .next t ∧ t.regs.status ≠ 0x00#8 :=
  ⟨_, exec_eq_effect _ _, by decide +kernel⟩

theorem witness_NoTransmissionAfterAFailedLoad :
    ∃ t u, exec (.frmLoad 0x0100#16 0x0010#16 []) loaded = .next t ∧ t.regs.status ≠ 0x00#8 ∧
      ReachedBy (fun i v => isLoad i = true → v.regs.status ≠ 0x00#8) t u ∧
      u.responses = [[0x01#8], [0x00#8]] :=
  ⟨_, _, exec_eq_effect _ _, by decide +kernel,
    .step (.refl _) (exec_eq_effect .crcInit _) (fun h => by cases h), by decide +kernel⟩

theorem witness_EncodeResponseLengthIsFiveMoreThanThePayload :
    loaded.regs.valid = true ∧ loaded.regs.FrameInv Config.hardware :=
  ⟨rfl, loadedRegs_frameInv⟩

theorem witness_FrmEncodeEmitsTheWireBytes :
    (loaded.regs.valid = true ∧ loaded.regs.FrameInv Config.hardware) ∧
    State.reset.regs.valid = false ∧
    ((0x11000001#32).extractLsb' 24 8 = 0x11#8 ∧ (0x11000001#32) ≠ 0x11000000#32) :=
  ⟨⟨rfl, loadedRegs_frameInv⟩, rfl, by decide⟩

theorem witness_EncodeIsRepeatableUntilTheFrameIsWritten :
    ∃ t u v, exec .frmEncode loaded = .next t ∧
      ReachedBy (fun i x => isLoad i = false ∧ (isDecode i = true → x.regs.status ≠ 0x00#8)) t u ∧
      exec .frmEncode u = .next v ∧ u.regs.status = 0x05#8 :=
  ⟨_, _, _, exec_eq_effect _ _,
    .step (.refl _) (exec_eq_effect (.frmDecode [0x001E#16, 0x0021#16, 0x0003#16]) _)
      ⟨rfl, fun _ => by decide +kernel⟩,
    exec_eq_effect _ _, by decide +kernel⟩

theorem witness_FrmDecodeChecksInOrderAndStoresOnSuccess :
    State.reset.regs.valid = false ∧ loaded.regs.valid = true ∧
    (List.replicate 3 0x0100#16).length < 4 ∧
    255 < (List.replicate 260 0x00AA#16).length - 4 ∧
    (List.replicate 259 0x00AA#16).length - 4 ≤ 255 ∧
    (4 ≤ (List.replicate 4 0xFFFF#16).length ∧
      ∃ u ∈ List.replicate 4 0xFFFF#16, u.extractLsb' 8 8 ≠ 0x00#8) ∧
    (4 ≤ (List.replicate 4 0x00AA#16).length ∧
      ∀ u ∈ List.replicate 4 0x00AA#16, u.extractLsb' 8 8 = 0x00#8) ∧
    (List.replicate 65535 0x00AA#16).length ≤ 65535 := by
  refine ⟨rfl, rfl, ?_, ?_, ?_, ⟨?_, 0xFFFF#16, .head _, by decide⟩, ⟨?_, highByte_replicate 4⟩, ?_⟩ <;>
    (rw [List.length_replicate] <;> omega)

/-- Rows DC8, DC2, DC5 and DC6: one frame for each outcome of the checksum stage. -/
theorem witness_FrmDecodeChecksInOrderAndStoresOnSuccess_stage :
    [[0x1E#8, 0x21#8, 0xC8#8, 0x08#8], [0x1E#8, 0x21#8, 0x03#8, 0x01#8, 0x97#8, 0x37#8],
      [0x1F#8, 0x21#8, 0x03#8, 0x01#8, 0x96#8, 0xCA#8],
      [0x1E#8, 0x22#8, 0x03#8, 0x01#8, 0x67#8, 0x36#8]].map (decodeFrame 0x1E#8 0x21#8) =
    [.ok [] 0x08C8#16, .err .checksumMismatch, .err .unexpectedId, .err .unexpectedCommand] := by
  decide +kernel

/-- Rows DC10, DC2 and DC9: each status class of FRM.DECODE. -/
theorem witness_FailedDecodeKeepsTheRequest :
    (∃ t, exec (.frmDecode [0x001E#16, 0x0021#16, 0x0003#16]) loaded = .next t ∧
      t.regs.status = 0x05#8) ∧
    (∃ t, exec (.frmDecode [0x001E#16, 0x0021#16, 0x00C8#16, 0x0009#16]) loaded = .next t ∧
      t.regs.status = 0x02#8) ∧
    (∃ t, exec (.frmDecode [0x001E#16, 0x0021#16, 0x0003#16, 0x0049#16, 0x0097#16]) loaded = .next t ∧
      t.regs.status = 0x00#8) :=
  ⟨⟨_, exec_eq_effect _ _, by decide +kernel⟩, ⟨_, exec_eq_effect _ _, by decide +kernel⟩,
    ⟨_, exec_eq_effect _ _, by decide +kernel⟩⟩

theorem witness_EncodeThenDecodeKeepsTheFrame :
    loaded.regs.valid = true ∧ loaded.regs.FrameInv Config.hardware :=
  ⟨rfl, loadedRegs_frameInv⟩

theorem witness_FrmReadReturnsTheFrameRegister :
    (loaded.regs.valid = true ∧ loaded.regs.FrameInv Config.hardware) ∧
    State.reset.regs.valid = false ∧
    ((0x13000001#32).extractLsb' 24 8 = 0x13#8 ∧ (0x13000001#32) ≠ 0x13000000#32) :=
  ⟨⟨rfl, loadedRegs_frameInv⟩, rfl, by decide⟩

theorem witness_StatReadReturnsStatusUnwritten :
    (0x20000001#32).extractLsb' 24 8 = 0x20#8 ∧ (0x20000001#32) ≠ 0x20000000#32 := by decide

theorem witness_IllegalWordWritesOnlyStatus :
    legalWord 0x10010000#32 = false ∧ loaded.phase = .idle ∧ loaded.stall = 0 ∧
    ({ quiet with cmdValid := true, cmdData := 0x10010000#32 } : PortIn).rstN = true := by decide

/-- The load and the two commands of program P4, steps 2 to 4. -/
theorem witness_FrameCommandsNeedALoadAfterReset :
    (∀ i ∈ [Instr.crcUpdate 0x1E#8, .frmRead, .crcRead], keepsStream i = true) ∧
    ∃ u, ReachedBy (fun i v => isLoad i = true → v.regs.status ≠ 0x00#8) State.reset u ∧
      u.regs.status = 0x01#8 :=
  ⟨by decide, _, .step (.refl _) (exec_eq_effect (.frmLoad 0x0001#16 0x0010#16 [0x0100#16]) _)
    (fun _ => by decide +kernel), by decide +kernel⟩

/-- Row DC1: a response longer than the request. -/
theorem witness_EncodeAfterDecodeSendsTheReceivedFrame :
    ∃ t, exec (.frmDecode [0x001E#16, 0x0021#16, 0x0003#16, 0x0001#16, 0x0097#16, 0x0036#16]) loaded =
      .next t ∧ t.regs.status = 0x00#8 :=
  ⟨_, exec_eq_effect _ _, by decide +kernel⟩

/-- A load changes every frame register, a decode CRC, an update CRC. -/
theorem witness_OnlyTheListedCommandsWriteEachRegister :
    (∃ t, exec (.frmLoad 0x001E#16 0x0021#16 [0x0003#16]) State.reset = .next t ∧
      t.regs.valid ≠ State.reset.regs.valid ∧ t.regs.fid ≠ State.reset.regs.fid ∧
      t.regs.flen ≠ State.reset.regs.flen) ∧
    (∃ t, exec (.crcUpdate 0x1E#8) State.reset = .next t ∧ t.regs.crc ≠ State.reset.regs.crc) ∧
    (∃ t, exec .frmEncode State.reset = .next t ∧ t.regs.status ≠ State.reset.regs.status) :=
  ⟨⟨_, exec_eq_effect _ _, by decide +kernel⟩, ⟨_, exec_eq_effect _ _, by decide +kernel⟩,
    ⟨_, exec_eq_effect _ _, by decide +kernel⟩⟩

theorem witness_ReadCommandsRepeatTheirResponse :
    (∃ t u, exec .crcRead loaded = .next t ∧ exec .crcRead t = .next u) ∧
    (∃ t u, exec .frmRead loaded = .next t ∧ exec .frmRead t = .next u) ∧
    (∃ t u, exec .statRead loaded = .next t ∧ exec .statRead t = .next u) :=
  ⟨⟨_, _, exec_eq_effect _ _, exec_eq_effect _ _⟩, ⟨_, _, exec_eq_effect _ _, exec_eq_effect _ _⟩,
    ⟨_, _, exec_eq_effect _ _, exec_eq_effect _ _⟩⟩

theorem witness_NoCommandDependsOnStatus : Instr.frmEncode ≠ .statRead := by decide

/-- The end of program P4, step 7, against the reset values: two states a host cannot tell apart. -/
theorem witness_FrameRegistersAreUnobservableWithoutAFrame :
    FrameBlind State.reset
      { State.reset with
        regs := { Registers.reset with fid := 0x01#8, fcmd := 0x10#8, fchk := 0xEC01#16 } } :=
  .inr ⟨rfl, 0x01#8, 0x10#8, 0#16, [], 0xEC01#16, rfl⟩

theorem witness_EveryWellFormedTransactionCompletes :
    loaded.phase = .idle ∧ [0x001E#16, 0x0021#16].length = need 0x12000002#32 ∧
    [].length (α := OperandWord) = need 0x12010004#32 := by decide

theorem witness_TransactionsWithAWrongOperandCount :
    loaded.phase = .idle ∧ [0x001E#16].length ≠ need 0x12000002#32 ∧
    [0x001E#16, 0x0021#16].length = need 0x12000002#32 ∧
    (quiet.rstN = true ∧ opdReady waiting = true ∧ quiet.opdValid = false) ∧
    opdReady loaded = false ∧ loaded.stall = 0 ∧ 0 < need 0x12000003#32 ∧ 1 < need 0x12000003#32 := by
  decide

theorem witness_StepRunsTheDecodedCommand :
    (loaded.issuing 0x03000000#32 []).phase = .idle ∧
    (loaded.issuing 0x03000000#32 []).inbox = [.transaction ⟨0x03000000#32, []⟩] ∧
    decode ⟨0x03000000#32, []⟩ = .ok .crcRead ∧
    (draining.issuing 0x03000000#32 []).phase = .sending [0x00#8] [0xFF#8, 0xFF#8] ∧
    loaded.inbox = [] := by decide

theorem witness_StepKeepsTheInvariant :
    (loaded.issuing 0x11000000#32 []).Inv ∧ ∃ t, step (loaded.issuing 0x11000000#32 []) = .next t :=
  ⟨⟨loaded_inv.regs, loaded_inv.phase, loaded_inv.responses⟩, _, rfl⟩

/-- Program P3, step 1. -/
theorem witness_ValidFrameIsConsistentInEveryRun :
    ∃ s, Reachable s ∧ s.regs.valid = true :=
  ⟨State.reset.complete (effect (.frmLoad 0x0007#16 0x0011#16 []) Registers.reset),
    .issue (w := 0x10000000#32) (opds := [0x0007#16, 0x0011#16]) .reset rfl rfl, rfl⟩

theorem witness_FrameStaysConsistentForEveryCapacity :
    loadedRegs.FrameInv Config.hardware := loadedRegs_frameInv

theorem witness_ResetEdgeAbandonsEverything :
    ({ quiet with rstN := false } : PortIn).rstN = false ∧ quiet.rstN = true ∧
    quiet.cmdValid = false := by decide

theorem waiting_inv : waiting.Inv :=
  ⟨loaded_inv.regs, show 1 < need 0x12000003#32 by decide, by intro rsp h; cases h⟩

theorem draining_inv : draining.Inv :=
  ⟨loaded_inv.regs,
    ⟨by decide, 0x00#8, [0xFF#8, 0xFF#8], rfl, by decide, fun h => absurd rfl h⟩,
    by intro rsp h; cases h⟩

theorem witness_ChannelsTransferOnlyWhenReady :
    (portOut waiting).cmdReady = false ∧ (portOut loaded).opdReady = false ∧
    ((portOut waiting).rspValid = false ∧ waiting.Inv) ∧ (portOut loaded).cmdReady = true ∧
    (waiting.Inv ∧ (portOut waiting).opdReady = true) ∧ (portOut draining).rspValid = true :=
  ⟨rfl, rfl, ⟨rfl, waiting_inv⟩, rfl, ⟨waiting_inv, rfl⟩, rfl⟩

theorem witness_EveryEdgeStuttersOrCarriesOutOneTransaction :
    waiting.Inv ∧ quiet.rstN = true ∧ ∃ t, portEdge quiet waiting = .next t :=
  ⟨waiting_inv, rfl, _, rfl⟩

theorem witness_PatientHostGetsEveryTransactionDone :
    loaded.phase = .idle ∧ [0x001E#16, 0x0021#16].length = need 0x12000002#32 ∧
    ∃ u, step (loaded.issuing 0x12000002#32 [0x001E#16, 0x0021#16]) = .next u :=
  ⟨rfl, by decide, _, rfl⟩

theorem witness_BlockWaitsForItsHost :
    (waiting.phase = .taking 0x12000003#32 [0x001E#16] ∧ waiting.stall = 0 ∧
      ∀ p ∈ [quiet, quiet], p.rstN = true ∧ p.opdValid = false) ∧
    (draining.phase = .sending [0x00#8] [0xFF#8, 0xFF#8] ∧ draining.stall = 0 ∧
      ∀ p ∈ [quiet, quiet], p.rstN = true ∧ p.rspReady = false) := by decide

theorem witness_AssemblerWritesTheTransactionsOfItsTable :
    ((256 : Int) < 0 ∨ (255 : Int) < 256) ∧ ((-1 : Int) < 0 ∨ (255 : Int) < -1) ∧
    (([3] : List Int).length ≤ 65535 ∧
      ∀ v ∈ ([65535, -32768, 3] : List Int), -32768 ≤ v ∧ v ≤ 65535) := by decide

theorem witness_CrcComputeAnswersCrc16 : State.reset.phase = .idle := rfl

end Sys2Proof.Tests
end

section
/-! PROOFS. Legal words and operand counts (30_encoding.md R65, R68): the words that decode to a command,
how many operand words they take, and how the ports gather them. -/

namespace Sys2Proof

/-! ### Legal words (R68) -/

/-- The condition a row of R62 puts on OP and IMM16 (R68, conditions 1 and 3). -/
theorem opcodeMap_isSome_iff (op : Byte) (imm : Half) :
    (opcodeMap op imm).isSome = true ↔
      (op ∈ [0x01#8, 0x03#8, 0x11#8, 0x13#8, 0x20#8] ∧ imm = 0x0000#16) ∨
      (op = 0x02#8 ∧ imm.extractLsb' 8 8 = 0x00#8) ∨ op ∈ [0x10#8, 0x12#8] := by
  constructor
  · intro h
    obtain ⟨c, hc⟩ := Option.isSome_iff_exists.mp h
    rcases opcodeMap_cases hc with ⟨rfl, zero, -⟩ | ⟨rfl, high, -⟩ | ⟨rfl, zero, -⟩ | ⟨rfl, -⟩ |
      ⟨rfl, zero, -⟩ | ⟨rfl, -⟩ | ⟨rfl, zero, -⟩ | ⟨rfl, zero, -⟩
    · exact .inl ⟨by decide, zero⟩
    · exact .inr (.inl ⟨rfl, high⟩)
    · exact .inl ⟨by decide, zero⟩
    · exact .inr (.inr (by decide))
    · exact .inl ⟨by decide, zero⟩
    · exact .inr (.inr (by decide))
    · exact .inl ⟨by decide, zero⟩
    · exact .inl ⟨by decide, zero⟩
  · rintro (⟨hop, rfl⟩ | ⟨rfl, high⟩ | hop)
    · revert op
      decide
    · simp [opcodeMap, updateCommand, high]
    · rcases List.mem_pair.mp hop with rfl | rfl <;> rfl

theorem legalWord_iff_exists {w : CommandWord} :
    legalWord w = true ↔ ∃ c, decodeCommand w = some c :=
  Option.isSome_iff_exists

theorem legalWord_eq_false_iff {w : CommandWord} : legalWord w = false ↔ decodeCommand w = none :=
  Option.isSome_eq_false_iff.trans Option.isNone_iff_eq_none

/-- A command word decodes by the opcode map when RSV is 0x00, and not at all otherwise. -/
theorem decodeCommand_eq_some_iff {w : CommandWord} {c : Command} :
    decodeCommand w = some c ↔ rsvField w = 0x00#8 ∧ opcodeMap (opField w) (immField w) = some c := by
  unfold decodeCommand
  by_cases rsv : rsvField w = 0x00#8 <;> simp [rsv]

theorem legalWord_iff {w : CommandWord} :
    legalWord w = true ↔
      rsvField w = 0x00#8 ∧ (opcodeMap (opField w) (immField w)).isSome = true := by
  simp only [legalWord_iff_exists, decodeCommand_eq_some_iff, Option.isSome_iff_exists,
    exists_and_left]

/-- The high half of IMM16 is bits 15:8 of the word. -/
theorem immField_high (w : CommandWord) :
    (immField w).extractLsb' 8 8 = w.extractLsb' 8 8 := by
  apply BitVec.eq_of_getLsbD_eq
  intro k hk
  simp [immField, hk]

/-! ### Operand counts (R65) -/

theorem need_of_decodeCommand {w : CommandWord} {c : Command} (h : decodeCommand w = some c) :
    need w = c.need := by
  simp only [need, h]

theorem need_of_illegal {w : CommandWord} (h : legalWord w = false) : need w = 0 := by
  simp only [need, legalWord_eq_false_iff.mp h]

theorem decodeCommand_of_legal {w : CommandWord} (h : legalWord w = true) :
    decodeCommand w = opcodeMap (opField w) (immField w) :=
  if_pos (legalWord_iff.mp h).1

theorem need_of_load {w : CommandWord} (legal : legalWord w = true) (op : opField w = 0x10#8) :
    need w = (immField w).toNat + 2 :=
  need_of_decodeCommand (c := .frmLoad (immField w)) (by rw [decodeCommand_of_legal legal, op]; rfl)

theorem need_of_frmDecode {w : CommandWord} (legal : legalWord w = true) (op : opField w = 0x12#8) :
    need w = (immField w).toNat :=
  need_of_decodeCommand (c := .frmDecode (immField w)) (by rw [decodeCommand_of_legal legal, op]; rfl)

/-- Only FRM.LOAD and FRM.DECODE take operand words. -/
theorem need_of_other {w : CommandWord} (load : opField w ≠ 0x10#8) (dec : opField w ≠ 0x12#8) :
    need w = 0 := by
  cases h : decodeCommand w with
  | none => exact need_of_illegal (legalWord_eq_false_iff.mpr h)
  | some c =>
    rw [need_of_decodeCommand h]
    rcases opcodeMap_cases (decodeCommand_eq_some_iff.mp h).2 with ⟨-, -, rfl⟩ | ⟨-, -, rfl⟩ |
      ⟨-, -, rfl⟩ | ⟨op, -⟩ | ⟨-, -, rfl⟩ | ⟨op, -⟩ | ⟨-, -, rfl⟩ | ⟨-, -, rfl⟩
    · rfl
    · rfl
    · rfl
    · exact absurd op load
    · rfl
    · exact absurd op dec
    · rfl
    · rfl

end Sys2Proof

namespace Sys2Proof.Machine

/-! ### An illegal word at the transaction level (R151) -/

/-- An illegal word by itself is a well-formed transaction that selects no command. -/
theorem decode_of_illegal {w : CommandWord} (h : legalWord w = false) :
    decode ⟨w, []⟩ = .error .illegalOp := by
  simp only [decode, legalWord_eq_false_iff.mp h, if_true]

theorem takeIllegalOp_eq_after (s : State) :
    takeIllegalOp s = s.after { s.regs with status := 0x08#8 } [0x08#8] := rfl

theorem raisesIllegalOp_of_illegal {w : CommandWord} (h : legalWord w = false) :
    RaisesIllegalOp w := by
  intro s idle
  rw [step_issuing idle, transact_illegal (decode_of_illegal h), takeIllegalOp_eq_after]

/-! ### Gathering operand words at the ports (R76, step 2) -/

theorem gather_of_lt {w : CommandWord} {taken : List OperandWord} (h : taken.length < need w)
    (s : State) : gather w taken s = .next (s.enter (.taking w taken)) :=
  if_pos h

theorem transferEdge_idle {s : State} (h : s.phase = .idle) (p : PortIn) :
    transferEdge p s = if p.cmdValid then gather p.cmdData [] s else .next s := by
  simp only [transferEdge, h]

theorem transferEdge_taking {s : State} {w : CommandWord} {taken : List OperandWord}
    (h : s.phase = .taking w taken) (p : PortIn) :
    transferEdge p s = if p.opdValid then gather w (taken ++ [p.opdData]) s else .next s := by
  simp only [transferEdge, h]

/-- The edge touches no register of `s`, completes no response and leaves the block in a phase that
meets `P`. -/
def OnlyMoves (s : State) (P : Phase → Prop) (edge : Host.Outcome State Fault Refusal) : Prop :=
  ∃ t, edge = .next t ∧ t.regs = s.regs ∧ t.responses = s.responses ∧ P t.phase

theorem onlyMoves_self {s : State} {P : Phase → Prop} (h : P s.phase) : OnlyMoves s P (.next s) :=
  ⟨s, rfl, rfl, rfl, h⟩

/-- Short of the last operand word, gathering awaits the next one and does nothing else. -/
theorem onlyMoves_gather {w : CommandWord} {taken : List OperandWord} {s : State} {P : Phase → Prop}
    (short : taken.length < need w) (h : P (.taking w taken)) : OnlyMoves s P (gather w taken s) :=
  ⟨_, gather_of_lt short s, rfl, rfl, h⟩

/-- With rst_n = 1 a stalled edge only counts the stall down, and a live one does what the channels
do. -/
theorem onlyMoves_portEdge {p : PortIn} {s : State} {P : Phase → Prop} (rst : p.rstN = true)
    (stay : P s.phase) (move : OnlyMoves s P (transferEdge p s)) : OnlyMoves s P (portEdge p s) := by
  cases live : s.live with
  | false => exact ⟨_, portEdge_stall rst live, rfl, rfl, stay⟩
  | true => exact portEdge_live rst live ▸ move

/-- An edge that offers an idle block a word with operand words accepts the word at most. -/
theorem portEdge_idle_acceptsWord {s : State} {p : PortIn} (idle : s.phase = .idle)
    (rst : p.rstN = true) (valid : p.cmdValid = true) (operands : 0 < need p.cmdData) :
    OnlyMoves s (fun ph => ph = .idle ∨ ph = .taking p.cmdData []) (portEdge p s) := by
  apply onlyMoves_portEdge rst (.inl idle)
  rw [transferEdge_idle idle, if_pos valid]
  exact onlyMoves_gather operands (.inr rfl)

/-- An edge short of the last operand word takes the word offered at most, behind those taken before. -/
theorem portEdge_taking_appendsOperand {s : State} {p : PortIn} {w : CommandWord}
    {taken : List OperandWord} (phase : s.phase = .taking w taken) (rst : p.rstN = true)
    (short : taken.length + 1 < need w) :
    OnlyMoves s (fun ph => ph = .taking w taken ∨ ph = .taking w (taken ++ [p.opdData]))
      (portEdge p s) := by
  apply onlyMoves_portEdge rst (.inl phase)
  rw [transferEdge_taking phase]
  cases p.opdValid with
  | false => exact onlyMoves_self (.inl phase)
  | true => exact onlyMoves_gather (by simpa using short) (.inr rfl)

/-- No word does anything before the last of its operand words, whatever its outcome will be. -/
theorem takesOperandsFirst (w : CommandWord) : TakesOperandsFirst w := by
  constructor
  · rintro s p idle rst valid rfl operands
    exact portEdge_idle_acceptsWord idle rst valid operands
  · intro s p taken phase rst short
    exact portEdge_taking_appendsOperand phase rst short

/-! ### The statements -/

/-- Settles O4: the word is legal when the opcode map selects a command from its fields, and otherwise
it decodes to IllegalOp. -/
theorem legalWordsMeetTheThreeConditions : Obligations.LegalWordsMeetTheThreeConditions := by
  unfold Obligations.LegalWordsMeetTheThreeConditions
  refine ⟨fun w => ?_, fun w => raisesIllegalOp_of_illegal⟩
  rw [legalWord_iff, opcodeMap_isSome_iff, immField_high]
  rfl

/-- Settles O6: the counts by the command the word selects, the order by one edge at a time. -/
theorem commandWordFixesTheOperandCount : Obligations.CommandWordFixesTheOperandCount := by
  unfold Obligations.CommandWordFixesTheOperandCount
  exact ⟨fun _ => need_of_load, fun _ => need_of_frmDecode, fun _ => need_of_other,
    fun _ => need_of_illegal, fun w _ => takesOperandsFirst w⟩

end Sys2Proof.Machine
end

section
/-! PROOFS. The CRC commands (40_crc.md section 2, R103 to R105): what each answers, its command word, and
the words with its OP that are illegal. -/

namespace Sys2Proof

/-! ### Command words (R62, R68) -/

/-- The word of CRC.UPDATE is its OP over the byte. -/
theorem commandWord_crcUpdate (b : Byte) :
    commandWord 0x02#8 (0x00#8 ++ b) = 0x02000000#32 ||| b.setWidth 32 := by
  have fixed : 0x02000000#32 = commandWord 0x02#8 0x0000#16 := rfl
  apply BitVec.eq_of_getLsbD_eq
  intro k hk
  rw [BitVec.getLsbD_or, fixed, commandWord_getLsbD, commandWord_getLsbD, BitVec.getLsbD_setWidth,
    BitVec.getLsbD_append]
  by_cases byte : k < 8
  · simp [byte, hk, show k < 16 from by omega]
  · simp [byte, BitVec.getLsbD_of_ge b k (by omega)]

/-- A command whose IMM16 must be 0x0000 has a single legal word (R68, condition 3). -/
theorem word_of_legal_zeroImm {op : Byte} {c : Command} (row : ∀ imm, opcodeMap op imm = whenZero imm c)
    {w : CommandWord} (legal : legalWord w = true) (hop : opField w = op) :
    w = commandWord op 0x0000#16 := by
  obtain ⟨rsv, selected⟩ := legalWord_iff.mp legal
  have zero : immField w = 0x0000#16 := by simpa [hop, row, whenZero] using selected
  rw [← commandWord_fields w rsv, hop, zero]

/-- A legal word of CRC.UPDATE has bits 15:8 and RSV at 0x00 (R68, conditions 2 and 3). -/
theorem fields_of_legal_crcUpdate {w : CommandWord} (legal : legalWord w = true)
    (hop : opField w = 0x02#8) : w.extractLsb' 8 8 = 0x00#8 ∧ rsvField w = 0x00#8 := by
  obtain ⟨rsv, selected⟩ := legalWord_iff.mp legal
  have high : (immField w).extractLsb' 8 8 = 0x00#8 := by
    simpa [hop] using (opcodeMap_isSome_iff _ _).mp selected
  exact ⟨immField_high w ▸ high, rsv⟩

/-- The word of a well-formed command without operand words needs none. -/
theorem need_of_encode_without_operands {i : Instr} (legal : Laws.EncodesLegal.Statement i)
    (wf : i.wellFormed = true) {w : CommandWord} (alone : encode i = ⟨w, []⟩) : need w = 0 := by
  have count := (legal wf).2
  rw [alone] at count
  exact count.symm

/-- The transaction of CRC.UPDATE decodes to it, with its byte. -/
theorem decode_encode_crcUpdate (b : Byte) : decode (encode (.crcUpdate b)) = .ok (.crcUpdate b) := by
  have selects : decodeCommand (encode (.crcUpdate b)).word = some (.crcUpdate b) :=
    (decodeCommand_commandWord _ _).trans (updateCommand_byte b)
  rw [decode, selects]
  rfl

end Sys2Proof

namespace Sys2Proof.Machine

/-- Every command records the registers and the response of its effect, and nothing else. -/
theorem exec_eq_after (i : Instr) (s : State) :
    exec i s = .next (s.after (effect i s.regs).regs (effect i s.regs).rsp) :=
  exec_eq_effect i s

/-- Any word but the one with IMM16 = 0x0000 and RSV = 0x00 raises IllegalOp (R68, R151). -/
theorem raisesIllegalOp_of_zeroImm {op : Byte} {c : Command}
    (row : ∀ imm, opcodeMap op imm = whenZero imm c) {w : CommandWord} (hop : opField w = op)
    (other : w ≠ commandWord op 0x0000#16) : RaisesIllegalOp w :=
  raisesIllegalOp_of_illegal
    (Bool.eq_false_iff.mpr fun legal => other (word_of_legal_zeroImm row legal hop))

/-- CRC.UPDATE with a nonzero bit in 15:8 or RSV raises IllegalOp (R104). -/
theorem raisesIllegalOp_of_crcUpdate {w : CommandWord} (hop : opField w = 0x02#8)
    (bad : w.extractLsb' 8 8 ≠ 0x00#8 ∨ rsvField w ≠ 0x00#8) : RaisesIllegalOp w := by
  refine raisesIllegalOp_of_illegal (Bool.eq_false_iff.mpr fun legal => ?_)
  obtain ⟨high, rsv⟩ := fields_of_legal_crcUpdate legal hop
  rcases bad with bad | bad
  · exact bad high
  · exact bad rsv

/-- The corner values that R104 lists. -/
theorem crcStep_corner_values :
    crcStep 0x0000#16 0x00#8 = 0x0000#16 ∧ crcStep 0xFFFF#16 0xFF#8 = 0x00FF#16 ∧
    crcStep (crcStep 0xFFFF#16 0xFF#8) 0xFF#8 = 0x0000#16 ∧ crcStep 0xFFFF#16 0x01#8 = 0x807E#16 := by
  decide +kernel

/-! ### The statements -/

/-- Settles O15: the effect of CRC.INIT with the seed, and its single legal word. -/
theorem crcInitSetsTheSeed : Obligations.CrcInitSetsTheSeed := by
  unfold Obligations.CrcInitSetsTheSeed
  exact ⟨exec_eq_after .crcInit, rfl, rfl,
    need_of_encode_without_operands Laws.EncodesLegal.crcInit rfl rfl,
    fun _ => raisesIllegalOp_of_zeroImm (c := .crcInit) fun _ => rfl⟩

/-- Settles O16: the effect of CRC.UPDATE, its words, one for each byte, and the rule's corner values. -/
theorem crcUpdateFoldsOneByte : Obligations.CrcUpdateFoldsOneByte := by
  unfold Obligations.CrcUpdateFoldsOneByte
  refine ⟨fun s b => exec_eq_after (.crcUpdate b) s, fun b => ?_, fun _ => raisesIllegalOp_of_crcUpdate,
    crcStep_corner_values⟩
  rw [← commandWord_crcUpdate]
  exact ⟨rfl, decode_encode_crcUpdate b,
    need_of_encode_without_operands (Laws.EncodesLegal.crcUpdate b) rfl rfl⟩

/-- Settles O17: the effect of CRC.READ, its two data bytes low first, and its single legal word. -/
theorem crcReadReturnsLowByteFirst : Obligations.CrcReadReturnsLowByteFirst := by
  unfold Obligations.CrcReadReturnsLowByteFirst
  exact ⟨exec_eq_after .crcRead, rfl, rfl,
    need_of_encode_without_operands Laws.EncodesLegal.crcRead rfl rfl,
    fun _ => raisesIllegalOp_of_zeroImm (c := .crcRead) fun _ => rfl⟩

end Sys2Proof.Machine
end

section
/-! PROOFS. The frame commands (41_frame.md section 2): FRM.LOAD (R126 to R128), FRM.ENCODE (R131),
FRM.DECODE (R133 to R136) and FRM.READ (R139). -/

namespace Sys2Proof

/-! ### Command words with a length (R65, R70, R71) -/

/-- The word of a command with a length is its OP over the length. -/
theorem commandWord_ofNat (op : Byte) {n : Nat} (fits : n ≤ 65535) :
    commandWord op (BitVec.ofNat 16 n) = commandWord op 0x0000#16 ||| BitVec.ofNat 32 n := by
  apply BitVec.eq_of_getLsbD_eq
  intro k hk
  simp only [BitVec.getLsbD_or, commandWord_getLsbD, BitVec.getLsbD_ofNat]
  by_cases low : k < 16
  · simp [low, hk]
  · have small : n < 2 ^ k := calc
      n < 2 ^ 16 := by omega
      _ ≤ 2 ^ k := Nat.pow_le_pow_right (by decide) (not_lt.mp low)
    simp [low, Nat.testBit_lt_two_pow small]

/-- The word of a well-formed command needs the operand words it is encoded with. -/
theorem need_of_encode {i : Instr} (legal : Laws.EncodesLegal.Statement i) (wf : i.wellFormed = true)
    {w : CommandWord} {opds : List OperandWord} (words : encode i = ⟨w, opds⟩) :
    need w = opds.length := by
  have count := (legal wf).2
  rw [words] at count
  exact count.symm

theorem encode_frmLoad (id cmd : OperandWord) {pay : List OperandWord} (fits : pay.length ≤ 65535) :
    encode (.frmLoad id cmd pay) =
      ⟨0x10000000#32 ||| BitVec.ofNat 32 pay.length, id :: cmd :: pay⟩ := by
  rw [encode, commandWord_ofNat 0x10#8 fits]
  rfl

theorem encode_frmDecode {opds : List OperandWord} (fits : opds.length ≤ 65535) :
    encode (.frmDecode opds) = ⟨0x12000000#32 ||| BitVec.ofNat 32 opds.length, opds⟩ := by
  rw [encode, commandWord_ofNat 0x12#8 fits]
  rfl

end Sys2Proof

namespace Sys2Proof.Machine

/-- A command whose effect is known records it, and nothing else. -/
theorem exec_of_effect {i : Instr} {s : State} {x : Result} (h : effect i s.regs = x) :
    exec i s = .next (s.after x.regs x.rsp) :=
  h ▸ exec_eq_after i s

/-! ### FRM.LOAD, branch by branch (R126) -/

section Load

variable {cfg : Config} {id cmd : OperandWord} {pay : List OperandWord} {r : Registers}

theorem loadFrame_of_long (long : cfg.maxPayload < pay.length) :
    loadFrame cfg id cmd pay r = raise .payloadTooLong r.invalidate :=
  if_pos long

theorem loadFrame_of_bytesOk (fits : pay.length ≤ cfg.maxPayload)
    (ok : allBytesOk (id :: cmd :: pay) = true) :
    loadFrame cfg id cmd pay r =
      finishOk [] (r.withFrame (operandByte id) (operandByte cmd) (pay.map operandByte)) :=
  (if_neg (not_lt.mpr fits)).trans (if_pos ok)

theorem loadFrame_of_badByte (fits : pay.length ≤ cfg.maxPayload)
    (bad : allBytesOk (id :: cmd :: pay) = false) :
    loadFrame cfg id cmd pay r = raise .invalidByteValue r.invalidate :=
  (if_neg (not_lt.mpr fits)).trans (if_neg (Bool.eq_false_iff.mp bad))

/-- A load stores the frame, or raises one of its two errors and only clears FRM_VALID (R128). -/
theorem loadFrame_stores_or_raises (cfg : Config) (id cmd : OperandWord) (pay : List OperandWord)
    (r : Registers) :
    (pay.length ≤ cfg.maxPayload ∧ loadFrame cfg id cmd pay r =
      finishOk [] (r.withFrame (operandByte id) (operandByte cmd) (pay.map operandByte))) ∨
    ∃ e, (e = .payloadTooLong ∨ e = .invalidByteValue) ∧
      loadFrame cfg id cmd pay r = raise e r.invalidate := by
  rcases loadFrame_cases cfg id cmd pay r with ⟨-, h⟩ | ⟨fits, -, h⟩ | ⟨-, -, h⟩
  · exact .inr ⟨_, .inl rfl, h⟩
  · exact .inl ⟨fits, h⟩
  · exact .inr ⟨_, .inr rfl, h⟩

end Load

/-! ### The invariant of the frame register (R127) -/

/-- Storing a frame that fits makes the frame register consistent. -/
theorem frameInv_withFrame {cfg : Config} {pay : List Byte} (fits : pay.length ≤ cfg.maxPayload)
    (r : Registers) (id cmd : Byte) : (r.withFrame id cmd pay).FrameInv cfg := by
  have length : (BitVec.ofNat 16 pay.length).toNat = pay.length := by
    rw [BitVec.toNat_ofNat]
    exact Nat.mod_eq_of_lt (by have := cfg.atMost; omega)
  exact ⟨length, length.trans_le fits, fun _ => rfl⟩

/-- The invariant does not speak of STATUS. -/
theorem Registers.FrameInv.withStatus {cfg : Config} {r : Registers} (h : r.FrameInv cfg) (v : Byte) :
    (r.withStatus v).FrameInv cfg :=
  ⟨h.payLength, h.atMost, h.checksum⟩

/-! ### The commands that use a frame, branch by branch (R131, R133, R139): with FRM_VALID = 0 each of
them raises NoFrame -/

theorem emitFrame_of_valid {r : Registers} (valid : r.valid = true) :
    emitFrame r =
      finishOk (encodeFrame r.fid r.fcmd r.fpay) (r.withCrc (crc16 (r.fid :: r.fcmd :: r.fpay))) := by
  simp only [emitFrame, if_pos valid, receivedChecksum_encodeFrame]

theorem readFrame_of_valid {cfg : Config} {r : Registers} (valid : r.valid = true)
    (inv : r.FrameInv cfg) :
    readFrame r =
      finishOk ([r.fid, r.fcmd, lo8 r.flen, hi8 r.flen] ++ r.fpay ++ [lo8 r.fchk, hi8 r.fchk]) r := by
  rw [readFrame, if_pos valid, inv.payLength, List.take_length]

theorem exec_frmEncode_of_noFrame {s : State} (noFrame : s.regs.valid = false) :
    exec .frmEncode s = .next (s.after { s.regs with status := 0x07#8 } [0x07#8]) :=
  exec_of_effect (i := .frmEncode) (if_neg (Bool.eq_false_iff.mp noFrame))

theorem exec_frmDecode_of_noFrame {s : State} (noFrame : s.regs.valid = false) (opds : List OperandWord) :
    exec (.frmDecode opds) s = .next (s.after { s.regs with status := 0x07#8 } [0x07#8]) :=
  exec_of_effect (i := .frmDecode opds) (if_pos noFrame)

theorem exec_frmRead_of_noFrame {s : State} (noFrame : s.regs.valid = false) :
    exec .frmRead s = .next (s.after { s.regs with status := 0x07#8 } [0x07#8]) :=
  exec_of_effect (i := .frmRead) (if_neg (Bool.eq_false_iff.mp noFrame))

section Check

variable {cfg : Config} {opds : List OperandWord} {r : Registers}

theorem checkFrame_of_valid (valid : r.valid = true) :
    checkFrame cfg opds r =
      if opds.length < 4 then raise .frameTooShort r
      else if cfg.maxPayload < opds.length - 4 then raise .payloadTooLong r
      else if allBytesOk opds then acceptFrame (opds.map operandByte) r
      else raise .invalidByteValue r :=
  if_neg (by simp [valid])

theorem checkFrame_of_short (valid : r.valid = true) (short : opds.length < 4) :
    checkFrame cfg opds r = raise .frameTooShort r := by
  rw [checkFrame_of_valid valid, if_pos short]

theorem checkFrame_of_long (valid : r.valid = true) (long : cfg.maxPayload < opds.length - 4) :
    checkFrame cfg opds r = raise .payloadTooLong r := by
  rw [checkFrame_of_valid valid, if_neg (by omega), if_pos long]

/-- Of a length in range, the frame is taken to the checksum stage when every word carries a byte. -/
theorem checkFrame_of_fits (valid : r.valid = true) (enough : 4 ≤ opds.length)
    (fits : opds.length - 4 ≤ cfg.maxPayload) :
    checkFrame cfg opds r =
      if allBytesOk opds then acceptFrame (opds.map operandByte) r else raise .invalidByteValue r := by
  rw [checkFrame_of_valid valid, if_neg (not_lt.mpr enough), if_neg (not_lt.mpr fits)]

/-- FRM.DECODE raises one of its four early errors, or goes on to the checksum stage (R134). -/
theorem checkFrame_raises_or_accepts (cfg : Config) (opds : List OperandWord) (r : Registers) :
    (∃ e, (e = .noFrame ∨ e = .frameTooShort ∨ e = .payloadTooLong ∨ e = .invalidByteValue) ∧
      checkFrame cfg opds r = raise e r) ∨
    checkFrame cfg opds r = acceptFrame (opds.map operandByte) r := by
  rcases checkFrame_cases cfg opds r with ⟨-, h⟩ | ⟨-, -, h⟩ | ⟨-, -, -, h⟩ | ⟨-, -, -, -, h⟩ |
    ⟨-, -, -, -, h⟩
  · exact .inl ⟨_, .inl rfl, h⟩
  · exact .inl ⟨_, .inr (.inl rfl), h⟩
  · exact .inl ⟨_, .inr (.inr (.inl rfl)), h⟩
  · exact .inl ⟨_, .inr (.inr (.inr rfl)), h⟩
  · exact .inr h

end Check

/-! ### The checksum stage (R133, R136, R170) -/

section Accept

variable {raw : List Byte} {r : Registers}

theorem acceptFrame_of_err {e : StatusCode} (h : decodeFrame r.fid r.fcmd raw = .err e) :
    acceptFrame raw r = raise e (r.withCrc (computedCrc raw)) := by
  rw [acceptFrame, h]

theorem acceptFrame_of_badChecksum (sum : computedCrc raw ≠ receivedChecksum raw) :
    acceptFrame raw r = raise .checksumMismatch (r.withCrc (computedCrc raw)) :=
  acceptFrame_of_err (if_pos sum)

theorem acceptFrame_of_badId (sum : computedCrc raw = receivedChecksum raw)
    (id : raw.getD 0 0#8 ≠ r.fid) :
    acceptFrame raw r = raise .unexpectedId (r.withCrc (computedCrc raw)) :=
  acceptFrame_of_err ((if_neg (not_not.mpr sum)).trans (if_pos id))

theorem acceptFrame_of_badCommand (sum : computedCrc raw = receivedChecksum raw)
    (id : raw.getD 0 0#8 = r.fid) (cmd : raw.getD 1 0#8 ≠ r.fcmd) :
    acceptFrame raw r = raise .unexpectedCommand (r.withCrc (computedCrc raw)) :=
  acceptFrame_of_err
    ((if_neg (not_not.mpr sum)).trans ((if_neg (not_not.mpr id)).trans (if_pos cmd)))

theorem acceptFrame_of_match (sum : computedCrc raw = receivedChecksum raw)
    (id : raw.getD 0 0#8 = r.fid) (cmd : raw.getD 1 0#8 = r.fcmd) :
    acceptFrame raw r = finishOk (receivedPayload raw)
      ((r.withCrc (computedCrc raw)).withResponse (receivedPayload raw) (receivedChecksum raw)) := by
  rw [acceptFrame, decodeFrame, if_neg (not_not.mpr sum), if_neg (not_not.mpr id),
    if_neg (not_not.mpr cmd)]

end Accept

theorem computedCrc_operandBytes (opds : List OperandWord) :
    computedCrc (opds.map operandByte) = crc16 ((opds.map operandByte).take (opds.length - 2)) := by
  rw [computedCrc, List.length_map]

theorem receivedChecksum_operandBytes (opds : List OperandWord) :
    receivedChecksum (opds.map operandByte) =
      (opds.map operandByte).getD (opds.length - 1) 0#8 ++
        (opds.map operandByte).getD (opds.length - 2) 0#8 := by
  rw [receivedChecksum, le16_eq_append, List.length_map]

theorem receivedPayload_operandBytes (opds : List OperandWord) :
    receivedPayload (opds.map operandByte) =
      ((opds.map operandByte).drop 2).take (opds.length - 4) := by
  rw [receivedPayload, List.drop_take, List.length_map, Nat.sub_sub]

theorem receivedPayload_length (raw : List Byte) : (receivedPayload raw).length = raw.length - 4 := by
  rw [receivedPayload, List.length_drop, List.length_take]
  omega

/-! ### The statements about FRM.LOAD -/

/-- Settles O18: one branch of the load for each case, and the encoding's word and operand count. -/
theorem frmLoadStoresOrRejectsTheFrame : Obligations.FrmLoadStoresOrRejectsTheFrame := by
  unfold Obligations.FrmLoadStoresOrRejectsTheFrame
  refine ⟨fun s id cmd pay fits ok => ?_, fun s id cmd pay long => ?_,
    fun s id cmd pay fits bad => ?_, fun id cmd pay fits => ?_, by decide +kernel⟩
  · rw [← List.length_map (as := pay) operandByte]
    exact exec_of_effect (i := .frmLoad id cmd pay)
      (loadFrame_of_bytesOk fits ((allBytesOk_iff _).mpr ok))
  · exact exec_of_effect (i := .frmLoad id cmd pay) (loadFrame_of_long long)
  · exact exec_of_effect (i := .frmLoad id cmd pay)
      (loadFrame_of_badByte fits ((allBytesOk_false_iff _).mpr bad))
  · have words := encode_frmLoad id cmd fits
    exact ⟨words, need_of_encode (Laws.EncodesLegal.frmLoad id cmd pay) (decide_eq_true fits) words,
      takesOperandsFirst _⟩

/-- Settles O19: the response [0x00] rules out the two errors, and the stored frame meets the
invariant. -/
theorem successfulLoadMakesTheFrameConsistent : Obligations.SuccessfulLoadMakesTheFrameConsistent := by
  unfold Obligations.SuccessfulLoadMakesTheFrameConsistent
  intro cfg id cmd pay r ok
  rcases loadFrame_stores_or_raises cfg id cmd pay r with ⟨fits, h⟩ | ⟨e, he, h⟩
  · rw [h]
    have fits : (pay.map operandByte).length ≤ cfg.maxPayload := by rwa [List.length_map]
    exact ⟨(frameInv_withFrame fits r _ _).withStatus _, rfl, rfl⟩
  · have failed : e.code ≠ 0x00#8 := by rcases he with rfl | rfl <;> decide
    rw [h] at ok
    exact absurd (List.head_eq_of_cons_eq ok) failed

/-- Settles O20: a failed load is one of the two errors with FRM_VALID cleared, and every command that
uses a frame then raises NoFrame. -/
theorem failedLoadOnlyClearsValid : Obligations.FailedLoadOnlyClearsValid := by
  unfold Obligations.FailedLoadOnlyClearsValid
  intro s t id cmd pay run failed
  rcases loadFrame_stores_or_raises Config.hardware id cmd pay s.regs with ⟨-, h⟩ | ⟨e, he, h⟩
  · rw [exec_of_effect (i := .frmLoad id cmd pay) h] at run
    cases run
    exact absurd rfl failed
  · rw [exec_of_effect (i := .frmLoad id cmd pay) h] at run
    cases run
    refine ⟨?_, rfl, exec_frmEncode_of_noFrame rfl, exec_frmDecode_of_noFrame rfl,
      exec_frmRead_of_noFrame rfl⟩
    rcases he with rfl | rfl
    · exact .inl rfl
    · exact .inr rfl

/-! ### The statements about FRM.ENCODE and FRM.READ -/

/-- The two frames that R131 writes out. -/
theorem encodeFrame_examples :
    encodeFrame 0xFF#8 0xFF#8 [] = [0xFF#8, 0xFF#8, 0x00#8, 0x00#8] ∧
    encodeFrame 0x1E#8 0x21#8 [0x03#8] = [0x1E#8, 0x21#8, 0x03#8, 0x49#8, 0x97#8] := by
  decide +kernel

/-- Settles O23: the effect of FRM.ENCODE with and without a frame, and its single legal word. -/
theorem frmEncodeEmitsTheWireBytes : Obligations.FrmEncodeEmitsTheWireBytes := by
  unfold Obligations.FrmEncodeEmitsTheWireBytes
  refine ⟨fun s valid => ?_, fun s => exec_frmEncode_of_noFrame, fun s valid inv => ?_, rfl, rfl,
    need_of_encode_without_operands Laws.EncodesLegal.frmEncode rfl rfl,
    fun _ => raisesIllegalOp_of_zeroImm (c := .frmEncode) fun _ => rfl, encodeFrame_examples⟩
  · exact exec_of_effect (i := .frmEncode) (emitFrame_of_valid valid)
  · exact ⟨_, exec_of_effect (i := .frmEncode) (emitFrame_of_valid valid), (inv.checksum valid).symm⟩

/-- Settles O29: the effect of FRM.READ with a consistent frame and without a frame, and its single
legal word. -/
theorem frmReadReturnsTheFrameRegister : Obligations.FrmReadReturnsTheFrameRegister := by
  unfold Obligations.FrmReadReturnsTheFrameRegister
  refine ⟨fun s valid inv => ?_, fun s => exec_frmRead_of_noFrame, rfl, rfl,
    need_of_encode_without_operands Laws.EncodesLegal.frmRead rfl rfl,
    fun _ => raisesIllegalOp_of_zeroImm (c := .frmRead) fun _ => rfl⟩
  refine ⟨_, exec_of_effect (i := .frmRead) (readFrame_of_valid valid inv), rfl, ?_⟩
  simp only [finishOk_rsp, List.length_append, List.length_cons, List.length_nil, inv.payLength]
  omega

/-! ### The statements about FRM.DECODE -/

/-- Settles O25: one branch of the checks for each early error, one branch of the checksum stage for
each of its outcomes, and the encoding's word and operand count. -/
theorem frmDecodeChecksInOrderAndStoresOnSuccess :
    Obligations.FrmDecodeChecksInOrderAndStoresOnSuccess := by
  unfold Obligations.FrmDecodeChecksInOrderAndStoresOnSuccess
  refine ⟨fun s opds noFrame => exec_frmDecode_of_noFrame noFrame opds, fun s opds valid short => ?_,
    fun s opds valid long => ?_, fun s opds valid enough fits bad => ?_,
    fun s opds valid enough fits ok => ?_, fun opds fits => ?_, by decide +kernel⟩
  · exact exec_of_effect (i := .frmDecode opds) (checkFrame_of_short valid short)
  · exact exec_of_effect (i := .frmDecode opds) (checkFrame_of_long valid long)
  · have bad := Bool.eq_false_iff.mp ((allBytesOk_false_iff _).mpr bad)
    exact exec_of_effect (i := .frmDecode opds)
      ((checkFrame_of_fits valid enough fits).trans (if_neg bad))
  · have stage : effect (.frmDecode opds) s.regs = acceptFrame (opds.map operandByte) s.regs :=
      (checkFrame_of_fits valid enough fits).trans (if_pos ((allBytesOk_iff _).mpr ok))
    have length : opds.length - 4 = (receivedPayload (opds.map operandByte)).length := by
      rw [receivedPayload_length, List.length_map]
    intro raw c r pay
    have hc : c = computedCrc raw := (computedCrc_operandBytes opds).symm
    have hr : r = receivedChecksum raw := (receivedChecksum_operandBytes opds).symm
    have hpay : pay = receivedPayload raw := (receivedPayload_operandBytes opds).symm
    rw [hc, hr, hpay, length]
    refine ⟨fun sum => ?_, fun sum id => ?_, fun sum id cmd => ?_, fun sum id cmd => ?_⟩
    · exact exec_of_effect (stage.trans (acceptFrame_of_badChecksum sum))
    · exact exec_of_effect (stage.trans (acceptFrame_of_badId sum id))
    · exact exec_of_effect (stage.trans (acceptFrame_of_badCommand sum id cmd))
    · exact exec_of_effect (stage.trans (acceptFrame_of_match sum id cmd))
  · have words := encode_frmDecode fits
    exact ⟨words, need_of_encode (Laws.EncodesLegal.frmDecode opds) (decide_eq_true fits) words,
      takesOperandsFirst _⟩

/-- Settles O26: an early error keeps CRC, the checksum stage writes it, and each kind of outcome has
codes of its own. -/
theorem failedDecodeKeepsTheRequest : Obligations.FailedDecodeKeepsTheRequest := by
  unfold Obligations.FailedDecodeKeepsTheRequest
  intro s t opds run
  have crc := computedCrc_operandBytes opds
  rcases checkFrame_raises_or_accepts Config.hardware opds s.regs with ⟨e, he, h⟩ | stage
  · rw [exec_of_effect (i := .frmDecode opds) h] at run
    cases run
    have early : ¬(e.code = 0x00#8 ∨ e.code = 0x02#8 ∨ e.code = 0x03#8 ∨ e.code = 0x04#8) := by
      rcases he with rfl | rfl | rfl | rfl <;> decide
    exact ⟨fun _ => rfl, fun reached => absurd reached early, fun _ => ⟨rfl, rfl, rfl, rfl, rfl, rfl⟩⟩
  · rcases acceptFrame_cases (opds.map operandByte) s.regs with ⟨e, he, -, h⟩ | ⟨-, -, -, h⟩
    · rw [exec_of_effect (i := .frmDecode opds) (stage.trans h)] at run
      cases run
      have late : ¬(e.code = 0x07#8 ∨ e.code = 0x05#8 ∨ e.code = 0x06#8 ∨ e.code = 0x01#8) := by
        rcases he with rfl | rfl | rfl <;> decide
      exact ⟨fun skipped => absurd skipped late, fun _ => crc, fun _ => ⟨rfl, rfl, rfl, rfl, rfl, rfl⟩⟩
    · rw [exec_of_effect (i := .frmDecode opds) (stage.trans h)] at run
      cases run
      exact ⟨fun skipped => by simp at skipped, fun _ => crc, fun failed => absurd rfl failed⟩

end Sys2Proof.Machine
end

section
/-! PROOFS. The status command (42_status.md R150): the effect of STAT.READ and its single legal word. -/

namespace Sys2Proof.Machine

/-- Settles O30: STAT.READ finishes without a write from every state, and its single legal word. -/
theorem statReadReturnsStatusUnwritten : Obligations.StatReadReturnsStatusUnwritten := by
  unfold Obligations.StatReadReturnsStatusUnwritten
  have answers : ∀ s : State, exec .statRead s = .next (s.after s.regs [0x00#8, s.regs.status]) :=
    fun s => exec_eq_after .statRead s
  exact ⟨answers, answers State.reset, rfl, rfl,
    need_of_encode_without_operands Laws.EncodesLegal.statRead rfl rfl,
    fun _ => raisesIllegalOp_of_zeroImm (c := .statRead) fun _ => rfl⟩

end Sys2Proof.Machine
end

section
/-! PROOFS. Reset at the ports (70_reset_and_hazards.md R190, R192): the outputs in the phases reset
goes through, the edge that leaves reset, and the wait for a command word. -/

namespace Sys2Proof.Machine

/-! ### Outputs by phase (R60, R190) -/

/-- While reset holds the block it offers nothing, whatever stall is pending (R190). -/
theorem portOut_held {s : State} (h : s.phase = .held) :
    (portOut s).cmdReady = false ∧ (portOut s).opdReady = false ∧ (portOut s).rspValid = false := by
  simp [portOut, cmdReady, opdReady, rspValid, pendingBeats, h]

/-- An idle block without a pending stall is ready for a command word (R60, R192). -/
theorem cmdReady_idle {s : State} (idle : s.phase = .idle) (live : s.live = true) :
    (portOut s).cmdReady = true := by
  simp [portOut, cmdReady, idle, live]

/-! ### Edges with rst_n = 1 -/

/-- The first live edge with rst_n = 1 ends the reset, whatever the channels offer (R192). -/
theorem portEdge_held {p : PortIn} {s : State} (held : s.phase = .held) (rst : p.rstN = true)
    (live : s.live = true) : portEdge p s = .next { s with phase := .idle, stall := 0 } := by
  rw [portEdge_live rst live, transferEdge, held]

/-- A ready idle block that is offered no command word keeps its whole state (R192). -/
theorem portEdge_idle_waits {p : PortIn} {s : State} (idle : s.phase = .idle) (rst : p.rstN = true)
    (live : s.live = true) (silent : p.cmdValid = false) : portEdge p s = .next s := by
  rw [portEdge_live rst live, transferEdge_idle idle, silent]
  rfl

/-- Settles O45: rst_n = 0 holds the block in reset, the next edge makes it idle and ready, and an edge
without a command word then changes nothing. -/
theorem resetEdgeAbandonsEverything : Obligations.ResetEdgeAbandonsEverything := by
  unfold Obligations.ResetEdgeAbandonsEverything
  intro s p q reset release
  obtain ⟨cmd, opd, rsp⟩ := portOut_held (resetEdge_phase s)
  exact ⟨resetEdge s, { resetEdge s with phase := .idle, stall := 0 }, portEdge_reset reset s, rfl,
    cmd, opd, rsp, portEdge_held (resetEdge_phase s) release rfl, rfl, rfl, cmdReady_idle rfl rfl,
    fun _ rst silent => portEdge_idle_waits rfl rst rfl silent⟩

end Sys2Proof.Machine
end

section
/-! PROOFS. The decoder and the encoder (30_encoding.md sections 2 to 6): they are inverse to each other,
the rows of the opcode table are the legal words, and which operand words carry a byte. -/

namespace Sys2Proof

/-! ### From a command to its transaction and back -/

/-- What decodes to an instruction is a legal word with operand words that complete its command. -/
theorem decode_eq_ok_iff {t : Transaction} {i : Instr} :
    decode t = .ok i ↔ ∃ c, decodeCommand t.word = some c ∧ c.withOperands t.operands = .ok i := by
  unfold decode
  cases decodeCommand t.word with
  | none => by_cases empty : t.operands = [] <;> simp [empty]
  | some c => simp

/-- A payload length that fits IMM16 is read back from it. -/
theorem toNat_ofNat_of_fits {n : Nat} (fits : n ≤ 65535) : (BitVec.ofNat 16 n).toNat = n := by
  rw [BitVec.toNat_ofNat]
  exact Nat.mod_eq_of_lt (by omega)

theorem decode_encode {i : Instr} (wf : i.wellFormed = true) : decode (encode i) = .ok i := by
  cases i with
  | crcInit => rfl
  | crcUpdate b => exact decode_encode_crcUpdate b
  | crcRead => rfl
  | frmLoad id cmd pay =>
    have length := toNat_ofNat_of_fits (of_decide_eq_true wf)
    exact decode_eq_ok_iff.mpr ⟨_, decodeCommand_commandWord 0x10#8 _, if_pos length.symm⟩
  | frmEncode => rfl
  | frmDecode raw =>
    have length := toNat_ofNat_of_fits (of_decide_eq_true wf)
    exact decode_eq_ok_iff.mpr ⟨_, decodeCommand_commandWord 0x12#8 _, if_pos length.symm⟩
  | frmRead => rfl
  | statRead => rfl

/-- An immediate whose high half is 0x00 is its low half, zero-extended. -/
theorem zero_append_low {imm : Half} (high : imm.extractLsb' 8 8 = 0x00#8) :
    0x00#8 ++ imm.extractLsb' 0 8 = imm := by
  have halves := Machine.le16_halves imm
  rwa [Machine.le16_eq_append, Machine.hi8, Machine.lo8, high] at halves

/-- The count that a length field holds is the field again. -/
theorem ofNat_length_eq {n : Half} {opds : List OperandWord} (count : opds.length = n.toNat) :
    BitVec.ofNat 16 opds.length = n := by
  rw [count, BitVec.ofNat_toNat, BitVec.setWidth_eq]

/-- A command completed with operand words is encoded by the fields that selected it, before those
operand words. -/
theorem encode_of_withOperands {op : Byte} {imm : Half} {c : Command} {opds : List OperandWord}
    {i : Instr} (selected : opcodeMap op imm = some c) (h : c.withOperands opds = .ok i) :
    encode i = ⟨commandWord op imm, opds⟩ ∧ i.wellFormed = true := by
  have length_le {n : Half} {us : List OperandWord} (count : us.length = n.toNat) :
      us.length ≤ 65535 := by have := n.isLt; omega
  rcases opcodeMap_cases selected with ⟨rfl, rfl, rfl⟩ | ⟨rfl, high, rfl⟩ | ⟨rfl, rfl, rfl⟩ |
    ⟨rfl, rfl⟩ | ⟨rfl, rfl, rfl⟩ | ⟨rfl, rfl⟩ | ⟨rfl, rfl, rfl⟩ | ⟨rfl, rfl, rfl⟩
  · obtain ⟨rfl, rfl⟩ := noOperands_ok h
    exact ⟨rfl, rfl⟩
  · obtain ⟨rfl, rfl⟩ := noOperands_ok h
    exact ⟨by rw [encode, zero_append_low high], rfl⟩
  · obtain ⟨rfl, rfl⟩ := noOperands_ok h
    exact ⟨rfl, rfl⟩
  · obtain ⟨id, cmd, pay, rfl, count, rfl⟩ := loadOperands_ok h
    exact ⟨by rw [encode, ofNat_length_eq count], decide_eq_true (length_le count)⟩
  · obtain ⟨rfl, rfl⟩ := noOperands_ok h
    exact ⟨rfl, rfl⟩
  · obtain ⟨count, rfl⟩ := frameOperands_ok h
    exact ⟨by rw [encode, ofNat_length_eq count], decide_eq_true (length_le count)⟩
  · obtain ⟨rfl, rfl⟩ := noOperands_ok h
    exact ⟨rfl, rfl⟩
  · obtain ⟨rfl, rfl⟩ := noOperands_ok h
    exact ⟨rfl, rfl⟩

theorem encode_of_decode {t : Transaction} {i : Instr} (h : decode t = .ok i) :
    encode i = t ∧ i.wellFormed = true := by
  obtain ⟨c, word, operands⟩ := decode_eq_ok_iff.mp h
  obtain ⟨rsv, selected⟩ := decodeCommand_eq_some_iff.mp word
  have built := encode_of_withOperands selected operands
  rwa [commandWord_fields t.word rsv] at built

/-- Settles O1, one case for each command: the opcode map gives it back, and its length fits IMM16. -/
theorem decodeOfEncodeGivesTheCommand : Obligations.DecodeOfEncodeGivesTheCommand := by
  unfold Obligations.DecodeOfEncodeGivesTheCommand
  exact fun _ => decode_encode

/-- Settles O2, one case for each row of the opcode map: its fields and its operand words are those of
the transaction. -/
theorem encodeOfDecodeGivesTheTransaction : Obligations.EncodeOfDecodeGivesTheTransaction := by
  unfold Obligations.EncodeOfDecodeGivesTheTransaction
  exact fun _ _ => encode_of_decode

/-- Settles O3: each row of the table of R74 evaluates to its command. -/
theorem specCommandWordsDecode : Obligations.SpecCommandWordsDecode := by
  unfold Obligations.SpecCommandWordsDecode
  exact ⟨rfl, rfl, rfl, rfl, rfl, rfl, rfl, rfl⟩

/-! ### The opcode table -/

/-- A word is its three fields (R61). -/
theorem word_ext {v w : CommandWord} (op : opField v = opField w) (rsv : rsvField v = rsvField w)
    (imm : immField v = immField w) : v = w := by
  have bit {n start : Nat} (k : Nat) (part : v.extractLsb' start n = w.extractLsb' start n)
      (lower : start ≤ k) (upper : k < start + n) : v.getLsbD k = w.getLsbD k := by
    have := congrArg (fun x => x.getLsbD (k - start)) part
    simpa [show k - start < n from by omega, show start + (k - start) = k from by omega] using this
  apply BitVec.eq_of_getLsbD_eq
  intro k hk
  by_cases low : k < 16
  · exact bit k imm (by omega) (by omega)
  · by_cases mid : k < 24
    · exact bit k rsv (by omega) (by omega)
    · exact bit k op (by omega) (by omega)

/-- A row selects by each field on its own. -/
theorem selects_iff (row : OpcodeRow) (w : CommandWord) :
    row.selects w = true ↔
      opField w &&& opField row.mask = opField row.pattern ∧
      rsvField w &&& rsvField row.mask = rsvField row.pattern ∧
      immField w &&& immField row.mask = immField row.pattern := by
  simp only [OpcodeRow.selects, beq_iff_eq, opField, rsvField, immField, ← BitVec.extractLsb'_and]
  exact ⟨fun h => by simp [h], fun ⟨op, rsv, imm⟩ => word_ext op rsv imm⟩

theorem hi8_and (u v : Half) : Machine.hi8 (u &&& v) = Machine.hi8 u &&& Machine.hi8 v :=
  BitVec.extractLsb'_and

theorem lo8_and (u v : Half) : Machine.lo8 (u &&& v) = Machine.lo8 u &&& Machine.lo8 v :=
  BitVec.extractLsb'_and

/-- The IMM16 mask of CRC.UPDATE leaves the condition on IMM16[15:8] alone. -/
theorem and_highMask_eq_zero_iff (imm : Half) :
    imm &&& 0xFF00#16 = 0x0000#16 ↔ imm.extractLsb' 8 8 = 0x00#8 := by
  have high : Machine.hi8 (imm &&& 0xFF00#16) = Machine.hi8 imm :=
    (hi8_and _ _).trans BitVec.and_allOnes
  have low : Machine.lo8 (imm &&& 0xFF00#16) = 0x00#8 := (lo8_and _ _).trans BitVec.and_zero
  constructor
  · intro zero
    exact high.symm.trans (congrArg Machine.hi8 zero)
  · intro zero
    rw [← Machine.le16_halves (imm &&& 0xFF00#16), low, high, show Machine.hi8 imm = 0x00#8 from zero]
    rfl

/-- The row of the table with the command's mnemonic. -/
def Command.row : Command → OpcodeRow
  | .crcInit => ⟨"CRC.INIT", 0x01000000#32, 0xFFFFFFFF#32⟩
  | .crcUpdate _ => ⟨"CRC.UPDATE", 0x02000000#32, 0xFFFFFF00#32⟩
  | .crcRead => ⟨"CRC.READ", 0x03000000#32, 0xFFFFFFFF#32⟩
  | .frmLoad _ => ⟨"FRM.LOAD", 0x10000000#32, 0xFFFF0000#32⟩
  | .frmEncode => ⟨"FRM.ENCODE", 0x11000000#32, 0xFFFFFFFF#32⟩
  | .frmDecode _ => ⟨"FRM.DECODE", 0x12000000#32, 0xFFFF0000#32⟩
  | .frmRead => ⟨"FRM.READ", 0x13000000#32, 0xFFFFFFFF#32⟩
  | .statRead => ⟨"STAT.READ", 0x20000000#32, 0xFFFFFFFF#32⟩

/-- One command for each row. -/
theorem opcodeRows_eq_map_row :
    opcodeRows = [Command.crcInit, .crcUpdate 0x00#8, .crcRead, .frmLoad 0#16, .frmEncode,
      .frmDecode 0#16, .frmRead, .statRead].map Command.row := rfl

theorem Command.row_mem (c : Command) : c.row ∈ opcodeRows := by
  cases c <;> simp [opcodeRows, Command.row]

theorem exists_row_of_mem {row : OpcodeRow} (h : row ∈ opcodeRows) : ∃ c : Command, row = c.row := by
  rw [opcodeRows_eq_map_row] at h
  obtain ⟨c, -, rfl⟩ := List.mem_map.mp h
  exact ⟨c, rfl⟩

theorem Command.row_mnemonic (c : Command) : c.row.mnemonic = c.mnemonic := by
  cases c <;> rfl

/-- OP of a command's words (R62). -/
def Command.op : Command → Byte
  | .crcInit => 0x01#8
  | .crcUpdate _ => 0x02#8
  | .crcRead => 0x03#8
  | .frmLoad _ => 0x10#8
  | .frmEncode => 0x11#8
  | .frmDecode _ => 0x12#8
  | .frmRead => 0x13#8
  | .statRead => 0x20#8

/-- The bits of IMM16 that must be 0 in a command's words (R68, condition 3). -/
def Command.fixedImm : Command → Half
  | .crcUpdate _ => 0xFF00#16
  | .frmLoad _ => 0x0000#16
  | .frmDecode _ => 0x0000#16
  | .crcInit => 0xFFFF#16
  | .crcRead => 0xFFFF#16
  | .frmEncode => 0xFFFF#16
  | .frmRead => 0xFFFF#16
  | .statRead => 0xFFFF#16

theorem Command.row_pattern_fields (c : Command) :
    opField c.row.pattern = c.op ∧ rsvField c.row.pattern = 0x00#8 ∧
      immField c.row.pattern = 0x0000#16 := by
  cases c <;> simp only [Command.row, Command.op] <;> decide

theorem Command.row_mask_fields (c : Command) :
    opField c.row.mask = BitVec.allOnes 8 ∧ rsvField c.row.mask = BitVec.allOnes 8 ∧
      immField c.row.mask = c.fixedImm := by
  cases c <;> simp only [Command.row, Command.fixedImm] <;> decide

/-- A row selects the words with its OP, with RSV = 0x00 and with its fixed bits of IMM16 at 0. -/
theorem Command.row_selects_iff (c : Command) (w : CommandWord) :
    c.row.selects w = true ↔
      opField w = c.op ∧ rsvField w = 0x00#8 ∧ immField w &&& c.fixedImm = 0x0000#16 := by
  obtain ⟨op, rsv, imm⟩ := c.row_pattern_fields
  obtain ⟨opMask, rsvMask, immMask⟩ := c.row_mask_fields
  rw [selects_iff, op, rsv, imm, opMask, rsvMask, immMask, BitVec.and_allOnes, BitVec.and_allOnes]

/-- The row of the decoded command selects the word. -/
theorem selects_of_decodeCommand {w : CommandWord} {c : Command} (h : decodeCommand w = some c) :
    c.row.selects w = true := by
  obtain ⟨rsv, selected⟩ := decodeCommand_eq_some_iff.mp h
  rw [Command.row_selects_iff]
  rcases opcodeMap_cases selected with ⟨op, imm, rfl⟩ | ⟨op, high, rfl⟩ | ⟨op, imm, rfl⟩ |
    ⟨op, rfl⟩ | ⟨op, imm, rfl⟩ | ⟨op, rfl⟩ | ⟨op, imm, rfl⟩ | ⟨op, imm, rfl⟩
  · exact ⟨op, rsv, by rw [imm, BitVec.zero_and]⟩
  · exact ⟨op, rsv, (and_highMask_eq_zero_iff _).mpr high⟩
  · exact ⟨op, rsv, by rw [imm, BitVec.zero_and]⟩
  · exact ⟨op, rsv, BitVec.and_zero⟩
  · exact ⟨op, rsv, by rw [imm, BitVec.zero_and]⟩
  · exact ⟨op, rsv, BitVec.and_zero⟩
  · exact ⟨op, rsv, by rw [imm, BitVec.zero_and]⟩
  · exact ⟨op, rsv, by rw [imm, BitVec.zero_and]⟩

/-- A word with OP of a row whose IMM16 must be 0x0000 and with no other bit decodes to its command. -/
theorem decodeCommand_of_zeroImm {w : CommandWord} {op : Byte} {c : Command}
    (row : opcodeMap op 0x0000#16 = some c) (hop : opField w = op) (rsv : rsvField w = 0x00#8)
    (imm : immField w &&& BitVec.allOnes 16 = 0x0000#16) : decodeCommand w = some c := by
  rw [BitVec.and_allOnes] at imm
  exact decodeCommand_eq_some_iff.mpr ⟨rsv, by rw [hop, imm, row]⟩

/-- A word that a row selects decodes to a command of that row. -/
theorem decodeCommand_of_selects {w : CommandWord} {c : Command} (h : c.row.selects w = true) :
    ∃ d : Command, decodeCommand w = some d ∧ d.row = c.row := by
  obtain ⟨op, rsv, imm⟩ := (c.row_selects_iff w).mp h
  cases c with
  | crcInit => exact ⟨.crcInit, decodeCommand_of_zeroImm rfl op rsv imm, rfl⟩
  | crcUpdate b =>
    have high := (and_highMask_eq_zero_iff _).mp imm
    exact ⟨.crcUpdate ((immField w).extractLsb' 0 8),
      decodeCommand_eq_some_iff.mpr ⟨rsv, by rw [op]; exact if_pos high⟩, rfl⟩
  | crcRead => exact ⟨.crcRead, decodeCommand_of_zeroImm rfl op rsv imm, rfl⟩
  | frmLoad n =>
    exact ⟨.frmLoad (immField w), decodeCommand_eq_some_iff.mpr ⟨rsv, by rw [op]; rfl⟩, rfl⟩
  | frmEncode => exact ⟨.frmEncode, decodeCommand_of_zeroImm rfl op rsv imm, rfl⟩
  | frmDecode len =>
    exact ⟨.frmDecode (immField w), decodeCommand_eq_some_iff.mpr ⟨rsv, by rw [op]; rfl⟩, rfl⟩
  | frmRead => exact ⟨.frmRead, decodeCommand_of_zeroImm rfl op rsv imm, rfl⟩
  | statRead => exact ⟨.statRead, decodeCommand_of_zeroImm rfl op rsv imm, rfl⟩

/-- A row of the table selects exactly the words that decode to a command of that row. -/
theorem mem_and_selects_iff {row : OpcodeRow} {w : CommandWord} :
    (row ∈ opcodeRows ∧ row.selects w = true) ↔ ∃ c, decodeCommand w = some c ∧ row = c.row := by
  constructor
  · rintro ⟨mem, sel⟩
    obtain ⟨c, rfl⟩ := exists_row_of_mem mem
    obtain ⟨d, word, same⟩ := decodeCommand_of_selects sel
    exact ⟨d, word, same.symm⟩
  · rintro ⟨c, word, rfl⟩
    exact ⟨c.row_mem, selects_of_decodeCommand word⟩

/-- Settles O5: a row selects a word exactly when it is the row of the decoded command, and a word
decodes to one command. -/
theorem opcodeTableRowsAreTheLegalWords : Obligations.OpcodeTableRowsAreTheLegalWords := by
  unfold Obligations.OpcodeTableRowsAreTheLegalWords
  refine ⟨fun w => ?_, fun w row c mem sel word => ?_, fun w p q hp hq selP selQ => ?_⟩
  · rw [legalWord_iff_exists]
    constructor
    · rintro ⟨c, word⟩
      exact ⟨c.row, mem_and_selects_iff.mpr ⟨c, word, rfl⟩⟩
    · rintro ⟨row, h⟩
      obtain ⟨c, word, -⟩ := mem_and_selects_iff.mp h
      exact ⟨c, word⟩
  · obtain ⟨d, other, rfl⟩ := mem_and_selects_iff.mp ⟨mem, sel⟩
    rw [d.row_mnemonic, Option.some.inj (word.symm.trans other)]
  · obtain ⟨c, wordC, rfl⟩ := mem_and_selects_iff.mp ⟨hp, selP⟩
    obtain ⟨d, wordD, rfl⟩ := mem_and_selects_iff.mp ⟨hq, selQ⟩
    rw [Option.some.inj (wordC.symm.trans wordD)]

end Sys2Proof

namespace Sys2Proof.Machine

/-! ### Operand words (R63, R64) -/

/-- An operand word carries a byte when its number is below 256. -/
theorem byteOk_iff_toNat_lt (u : OperandWord) : byteOk u = true ↔ u.toNat < 256 := by
  have high : (u.extractLsb' 8 8).toNat = u.toNat / 256 := by
    rw [BitVec.extractLsb'_toNat, Nat.shiftRight_eq_div_pow]
    have := u.isLt
    omega
  rw [byteOk_iff, ← BitVec.toNat_inj, high, BitVec.toNat_ofNat]
  omega

theorem operandByte_toNat {u : OperandWord} (ok : byteOk u = true) :
    (operandByte u).toNat = u.toNat := by
  have small := (byteOk_iff_toNat_lt u).mp ok
  rw [operandByte, BitVec.extractLsb'_toNat, Nat.shiftRight_zero]
  omega

theorem operandOfInt_of_inRange {v : Int} (low : -32768 ≤ v) (high : v ≤ 65535) :
    operandOfInt v = some (BitVec.ofInt 16 v) :=
  if_pos ⟨low, high⟩

/-- The converted word is the integer modulo 2^16. -/
theorem toNat_ofInt_operand (v : Int) : ((BitVec.ofInt 16 v).toNat : Int) = v % 65536 := by
  rw [BitVec.toNat_ofInt]
  omega

/-- Settles O7: the converted word is the integer modulo 2^16, and it carries a byte when that is
below 256. -/
theorem operandWordsOfIntegersAndBytes : Obligations.OperandWordsOfIntegersAndBytes := by
  unfold Obligations.OperandWordsOfIntegersAndBytes
  refine ⟨fun v low high => ?_, fun v outside => if_neg (by omega), byteOk_iff,
    fun u ok => ⟨rfl, operandByte_toNat ok⟩⟩
  have number := toNat_ofInt_operand v
  refine ⟨_, operandOfInt_of_inRange low high, number, ?_⟩
  rw [byteOk_iff_toNat_lt]
  omega

end Sys2Proof.Machine
end

section
/-! PROOFS. The invariant (10_state.md R23, R27, R28, R30; 30_encoding.md R65, R67, R76): how a command
ends, what a transaction records, what an edge does, and that each of them keeps the invariant. -/

namespace Sys2Proof.Machine

/-! ### How a command ends (R8, R67) -/

/-- `x` is `finish OK` or an error, after register writes that keep the frame register of `r`
consistent. -/
def Result.Ends (cfg : Config) (r : Registers) (x : Result) : Prop :=
  ∃ q : Registers, (r.FrameInv cfg → q.FrameInv cfg) ∧
    ((∃ data, x = finishOk data q) ∨ ∃ e, x = raise e q)

section Ends

variable {cfg : Config} {r q : Registers} {x : Result}

theorem finishOk_ends (keeps : r.FrameInv cfg → q.FrameInv cfg) (data : List Byte) :
    (finishOk data q).Ends cfg r :=
  ⟨q, keeps, .inl ⟨data, rfl⟩⟩

theorem raise_ends (keeps : r.FrameInv cfg → q.FrameInv cfg) (e : StatusCode) :
    (raise e q).Ends cfg r :=
  ⟨q, keeps, .inr ⟨e, rfl⟩⟩

theorem StatusCode.code_le (e : StatusCode) : e.code.toNat ≤ 8 := by
  cases e <;> decide

theorem Result.Ends.frameInv (h : x.Ends cfg r) (inv : r.FrameInv cfg) : x.regs.FrameInv cfg := by
  obtain ⟨q, keeps, ⟨data, rfl⟩ | ⟨e, rfl⟩⟩ := h
  · exact (keeps inv).withStatus _
  · exact (keeps inv).withStatus _

/-- A command that ends so leaves one of the nine codes in STATUS. -/
theorem Result.Ends.status_le (h : x.Ends cfg r) : x.regs.status.toNat ≤ 8 := by
  obtain ⟨q, -, ⟨data, rfl⟩ | ⟨e, rfl⟩⟩ := h
  · exact StatusCode.ok.code_le
  · exact e.code_le

theorem LegalResponse.ne_nil {rsp : List Byte} (h : LegalResponse rsp) : rsp ≠ [] := by
  obtain ⟨code, data, rfl, -⟩ := h
  exact List.cons_ne_nil code data

theorem Result.Ends.legalResponse (h : x.Ends cfg r) : LegalResponse x.rsp := by
  obtain ⟨q, -, ⟨data, rfl⟩ | ⟨e, rfl⟩⟩ := h
  · exact legalResponse_finishOk data q
  · exact legalResponse_raise e q

/-- The response begins with the code that STATUS was given. -/
theorem Result.Ends.rsp_head (h : x.Ends cfg r) : x.rsp.head? = some x.regs.status := by
  obtain ⟨q, -, ⟨data, rfl⟩ | ⟨e, rfl⟩⟩ := h
  · rfl
  · rfl

end Ends

/-! ### The frame commands keep the frame register consistent (R27, R28, R30) -/

theorem Registers.FrameInv.withCrc {cfg : Config} {r : Registers} (h : r.FrameInv cfg) (c : Half) :
    (r.withCrc c).FrameInv cfg :=
  ⟨h.payLength, h.atMost, h.checksum⟩

/-- Without a frame the checksum is not spoken of. -/
theorem Registers.FrameInv.invalidate {cfg : Config} {r : Registers} (h : r.FrameInv cfg) :
    r.invalidate.FrameInv cfg :=
  ⟨h.payLength, h.atMost, fun valid => nomatch valid⟩

/-- A stored response that fits and whose checksum is that of its body is consistent. -/
theorem frameInv_withResponse {cfg : Config} {r : Registers} {pay : List Byte} {chk : Half}
    (fits : pay.length ≤ cfg.maxPayload) (sum : chk = crc16 (r.fid :: r.fcmd :: pay)) :
    (r.withResponse pay chk).FrameInv cfg := by
  have length := toNat_ofNat_of_fits (show pay.length ≤ 65535 by have := cfg.atMost; omega)
  exact ⟨length, length.trans_le fits, fun _ => sum⟩

/-- The computed CRC covers the header and the payload (R121). -/
theorem computedCrc_eq_crc16_body {raw : List Byte} (enough : 4 ≤ raw.length) :
    computedCrc raw = crc16 (raw.getD 0 0#8 :: raw.getD 1 0#8 :: receivedPayload raw) := by
  obtain ⟨id, cmd, pay, a, b, rfl⟩ := frame_parts raw enough
  rw [receivedPayload_append]
  exact computedCrc_append (id :: cmd :: pay) a b

theorem loadFrame_ends (cfg : Config) (id cmd : OperandWord) (pay : List OperandWord)
    (r : Registers) : (loadFrame cfg id cmd pay r).Ends cfg r := by
  rcases loadFrame_stores_or_raises cfg id cmd pay r with ⟨fits, h⟩ | ⟨e, -, h⟩
  · rw [h]
    exact finishOk_ends (fun _ => frameInv_withFrame (by rwa [List.length_map]) r _ _) []
  · rw [h]
    exact raise_ends (fun inv => inv.invalidate) e

theorem emitFrame_ends (cfg : Config) (r : Registers) : (emitFrame r).Ends cfg r := by
  rcases emitFrame_cases r with ⟨-, h⟩ | ⟨-, h⟩
  · exact h ▸ finishOk_ends (fun inv => inv.withCrc _) _
  · exact h ▸ raise_ends id _

theorem readFrame_ends (cfg : Config) (r : Registers) : (readFrame r).Ends cfg r := by
  rcases readFrame_cases r with ⟨-, h⟩ | ⟨-, h⟩
  · exact h ▸ finishOk_ends id _
  · exact h ▸ raise_ends id _

/-- The checksum stage stores a payload that its checksum covers, and nothing after an error. -/
theorem acceptFrame_ends {cfg : Config} {raw : List Byte} (r : Registers) (enough : 4 ≤ raw.length)
    (fits : raw.length - 4 ≤ cfg.maxPayload) : (acceptFrame raw r).Ends cfg r := by
  rcases acceptFrame_cases raw r with ⟨e, -, -, h⟩ | ⟨sum, id, cmd, h⟩
  · rw [h]
    exact raise_ends (fun inv => inv.withCrc _) e
  · have body : receivedChecksum raw = crc16 (r.fid :: r.fcmd :: receivedPayload raw) := by
      rw [← sum, computedCrc_eq_crc16_body enough, id, cmd]
    rw [h]
    exact finishOk_ends
      (fun _ => frameInv_withResponse (r := r.withCrc (computedCrc raw))
        (by rwa [receivedPayload_length]) body) _

theorem checkFrame_ends (cfg : Config) (opds : List OperandWord) (r : Registers) :
    (checkFrame cfg opds r).Ends cfg r := by
  rcases checkFrame_cases cfg opds r with ⟨-, h⟩ | ⟨-, -, h⟩ | ⟨-, -, -, h⟩ | ⟨-, -, -, -, h⟩ |
    ⟨-, enough, fits, -, h⟩
  · exact h ▸ raise_ends id _
  · exact h ▸ raise_ends id _
  · exact h ▸ raise_ends id _
  · exact h ▸ raise_ends id _
  · rw [h]
    exact acceptFrame_ends r (by rwa [List.length_map]) (by rwa [List.length_map])

/-- Settles O42: each branch of the two commands keeps the frame register consistent. -/
theorem frameStaysConsistentForEveryCapacity : Obligations.FrameStaysConsistentForEveryCapacity := by
  unfold Obligations.FrameStaysConsistentForEveryCapacity
  exact fun cfg r inv => ⟨fun id cmd pay => (loadFrame_ends cfg id cmd pay r).frameInv inv,
    fun opds => (checkFrame_ends cfg opds r).frameInv inv⟩

/-! ### Every command (R23, R67) -/

/-- Every command but STAT.READ ends with its code in STATUS and in its response. -/
theorem effect_ends {i : Instr} (other : i ≠ .statRead) (r : Registers) :
    (effect i r).Ends Config.hardware r := by
  cases i with
  | crcInit => exact finishOk_ends (fun inv => inv.withCrc _) []
  | crcUpdate b => exact finishOk_ends (fun inv => inv.withCrc _) []
  | crcRead => exact finishOk_ends id _
  | frmLoad id cmd pay => exact loadFrame_ends _ id cmd pay r
  | frmEncode => exact emitFrame_ends _ r
  | frmDecode raw => exact checkFrame_ends _ raw r
  | frmRead => exact readFrame_ends _ r
  | statRead => exact absurd rfl other

theorem legalResponse_effect (i : Instr) (r : Registers) : LegalResponse (effect i r).rsp := by
  by_cases stat : i = .statRead
  · subst stat
    exact legalResponse_finishOk [r.status] r
  · exact (effect_ends stat r).legalResponse

theorem effect_inv {r : Registers} (inv : r.Inv Config.hardware) (i : Instr) :
    (effect i r).regs.Inv Config.hardware := by
  by_cases stat : i = .statRead
  · subst stat
    exact inv
  · exact ⟨(effect_ends stat r).status_le, (effect_ends stat r).frameInv inv.frame⟩

/-! ### What a transaction records (R66, R151) -/

/-- The result of a well-formed transaction: that of the command it decodes to, or IllegalOp. -/
def answer (t : Transaction) (r : Registers) : Result :=
  match decode t with
  | .ok i => effect i r
  | .error _ => raise .illegalOp r

theorem answer_of_decode {t : Transaction} {i : Instr} (h : decode t = .ok i) (r : Registers) :
    answer t r = effect i r := by
  rw [answer, h]

theorem answer_of_illegal {t : Transaction} (h : decode t = .error .illegalOp) (r : Registers) :
    answer t r = raise .illegalOp r := by
  rw [answer, h]

/-- A well-formed transaction is a command's or stands for IllegalOp. -/
theorem decode_of_count {t : Transaction} (count : t.operands.length = need t.word) :
    (∃ i, decode t = .ok i) ∨ decode t = .error .illegalOp := by
  rcases decode_cases t with ⟨-, -, i, h⟩ | ⟨-, -, -, h⟩ | ⟨wrong, -⟩
  · exact .inl ⟨i, h⟩
  · exact .inr h
  · exact absurd count wrong

theorem transact_of_count {t : Transaction} (count : t.operands.length = need t.word) (s : State) :
    transact t s = .next (s.complete (answer t s.regs)) := by
  rcases decode_of_count count with ⟨i, h⟩ | h
  · rw [transact_ok h, exec_eq_effect, answer_of_decode h]
  · rw [transact_illegal h, answer_of_illegal h]
    rfl

theorem transact_of_wrong_count {t : Transaction} (wrong : t.operands.length ≠ need t.word)
    (s : State) : transact t s = .refused .operandCount := by
  rcases transact_cases t with ⟨count, -⟩ | ⟨-, refused⟩
  · exact absurd count wrong
  · exact refused s

/-- A transaction that completes is well formed and records its answer. -/
theorem transact_eq_next {t : Transaction} {s u : State} (h : transact t s = .next u) :
    t.operands.length = need t.word ∧ u = s.complete (answer t s.regs) := by
  by_cases count : t.operands.length = need t.word
  · rw [transact_of_count count] at h
    exact ⟨count, (Host.Outcome.next.inj h).symm⟩
  · rw [transact_of_wrong_count count] at h
    cases h

/-- After rst_n = 0 the host waits for the idle block (R192). -/
theorem issue_held {s : State} (h : s.phase = .held) (t : Transaction) :
    issue t s = transact t { s with phase := .idle, stall := 0 } := by
  simp only [issue, settle, h]

/-- A command that lacks operand words never ends (R199). -/
theorem issue_taking {s : State} {w : CommandWord} {taken : List OperandWord}
    (h : s.phase = .taking w taken) (t : Transaction) : issue t s = .refused .commandIncomplete := by
  simp only [issue, settle, h]

/-- A response on its way is drained first (R202). -/
theorem issue_sending {s : State} {sent rest : List Byte} (h : s.phase = .sending sent rest)
    (t : Transaction) :
    issue t s =
      transact t { s with phase := .idle, responses := s.responses ++ [sent ++ rest] } := by
  simp only [issue, settle, h]

section Answer

variable {t : Transaction} (count : t.operands.length = need t.word)
include count

theorem legalResponse_answer (r : Registers) : LegalResponse (answer t r).rsp := by
  rcases decode_of_count count with ⟨i, h⟩ | h
  · exact answer_of_decode h r ▸ legalResponse_effect i r
  · exact answer_of_illegal h r ▸ legalResponse_raise _ r

theorem answer_inv {r : Registers} (inv : r.Inv Config.hardware) :
    (answer t r).regs.Inv Config.hardware := by
  rcases decode_of_count count with ⟨i, h⟩ | h
  · exact answer_of_decode h r ▸ effect_inv inv i
  · exact answer_of_illegal h r ▸ ⟨StatusCode.illegalOp.code_le, inv.frame.withStatus _⟩

end Answer

/-! ### What an edge does (R60, R76) -/

/-- What an edge with rst_n = 1 makes of the block: it waits, leaves reset, takes a word, carries out the
transaction whose last word it takes, or sends a beat. -/
inductive EdgeEffect (s : State) : State → Prop
  | waits (stall : Nat) : EdgeEffect s { s with stall := stall }
  | releases : s.phase = .held → EdgeEffect s { s with phase := .idle, stall := 0 }
  | gathers {w : CommandWord} {taken : List OperandWord} :
      s.allResponses = s.responses → taken.length < need w → EdgeEffect s (s.enter (.taking w taken))
  | performs {w : CommandWord} {opds : List OperandWord} :
      s.allResponses = s.responses → opds.length = need w →
      EdgeEffect s ({ s with regs := (answer ⟨w, opds⟩ s.regs).regs }.enter
        (.sending [] (answer ⟨w, opds⟩ s.regs).rsp))
  | sends {sent rest : List Byte} :
      s.phase = .sending sent rest → EdgeEffect s (transferBeat sent rest s)

theorem allResponses_idle {s : State} (h : s.phase = .idle) : s.allResponses = s.responses := by
  rw [State.allResponses, h]

theorem allResponses_held {s : State} (h : s.phase = .held) : s.allResponses = s.responses := by
  rw [State.allResponses, h]

theorem allResponses_taking {s : State} {w : CommandWord} {taken : List OperandWord}
    (h : s.phase = .taking w taken) : s.allResponses = s.responses := by
  rw [State.allResponses, h]

theorem allResponses_sending {s : State} {sent rest : List Byte} (h : s.phase = .sending sent rest) :
    s.allResponses = s.responses ++ [sent ++ rest] := by
  rw [State.allResponses, h]

theorem perform_of_count {t : Transaction} (count : t.operands.length = need t.word) (s : State) :
    perform t s = .next ({ s with regs := (answer t s.regs).regs }.enter
      (.sending [] (answer t s.regs).rsp)) :=
  perform_next (transact_of_count count) s

/-- Only a well-formed transaction is carried out at the ports. -/
theorem perform_eq_next {t : Transaction} {s u : State} (h : perform t s = .next u) :
    t.operands.length = need t.word := by
  by_contra wrong
  rw [perform, transact_of_wrong_count wrong] at h
  cases h

theorem gather_of_count {w : CommandWord} {opds : List OperandWord} (count : opds.length = need w)
    (s : State) : gather w opds s = perform ⟨w, opds⟩ s :=
  if_neg (by omega)

/-- Taking one more word, the block awaits the next one or carries out the transaction. -/
theorem edgeEffect_of_gather {w : CommandWord} {taken : List OperandWord} {s u : State}
    (quiet : s.allResponses = s.responses) (h : gather w taken s = .next u) : EdgeEffect s u := by
  by_cases short : taken.length < need w
  · rw [gather_of_lt short] at h
    cases h
    exact .gathers quiet short
  · rw [gather, if_neg short] at h
    have count := perform_eq_next h
    rw [perform_of_count count] at h
    cases h
    exact .performs quiet count

theorem transferEdge_sending {s : State} {sent rest : List Byte} (h : s.phase = .sending sent rest)
    (p : PortIn) :
    transferEdge p s = if p.rspReady then .next (transferBeat sent rest s) else .next s := by
  simp only [transferEdge, h]

theorem transferEdge_held {s : State} (h : s.phase = .held) (p : PortIn) :
    transferEdge p s = .next { s with phase := .idle, stall := 0 } := by
  simp only [transferEdge, h]

theorem edgeEffect_of_transferEdge {p : PortIn} {s u : State} (h : transferEdge p s = .next u) :
    EdgeEffect s u := by
  cases phase : s.phase with
  | held =>
    rw [transferEdge_held phase] at h
    cases h
    exact .releases phase
  | idle =>
    rw [transferEdge_idle phase] at h
    split at h
    · exact edgeEffect_of_gather (allResponses_idle phase) h
    · cases h
      exact .waits s.stall
  | taking w taken =>
    rw [transferEdge_taking phase] at h
    split at h
    · exact edgeEffect_of_gather (allResponses_taking phase) h
    · cases h
      exact .waits s.stall
  | sending sent rest =>
    rw [transferEdge_sending phase] at h
    split at h
    · cases h
      exact .sends phase
    · cases h
      exact .waits s.stall

theorem edgeEffect_of_portEdge {p : PortIn} {s u : State} (rst : p.rstN = true)
    (h : portEdge p s = .next u) : EdgeEffect s u := by
  cases live : s.live with
  | false =>
    rw [portEdge_stall rst live] at h
    cases h
    exact .waits _
  | true =>
    rw [portEdge_live rst live] at h
    exact edgeEffect_of_transferEdge h

/-- A transferred beat is followed by the next one, or by an idle block with the whole response
recorded. -/
theorem transferBeat_cases (sent rest : List Byte) (s : State) :
    (∃ b more, more ≠ [] ∧ rest = b :: more ∧
      transferBeat sent rest s = s.enter (.sending (sent ++ [b]) more)) ∨
    transferBeat sent rest s = { s with responses := s.responses ++ [sent ++ rest] }.enter .idle := by
  match rest with
  | [] => exact .inr rfl
  | [_] => exact .inr rfl
  | b :: c :: more => exact .inl ⟨b, c :: more, by simp, rfl, rfl⟩

/-! ### The invariant, step by step -/

/-- One more legal response keeps the responses legal. -/
theorem legalResponses_append {rs : List (List Byte)} {rsp : List Byte}
    (hrs : ∀ x ∈ rs, LegalResponse x) (hrsp : LegalResponse rsp) :
    ∀ x ∈ rs ++ [rsp], LegalResponse x := by
  intro x hx
  rcases List.mem_append.mp hx with old | new
  · exact hrs x old
  · exact List.mem_singleton.mp new ▸ hrsp

theorem registers_reset_inv : Registers.reset.Inv Config.hardware :=
  ⟨by decide, rfl, by decide, fun valid => nomatch valid⟩

theorem transact_inv {t : Transaction} {s u : State} (inv : s.Inv) (h : transact t s = .next u) :
    u.Inv := by
  obtain ⟨count, rfl⟩ := transact_eq_next h
  exact ⟨answer_inv count inv.regs, inv.phase,
    legalResponses_append inv.responses (legalResponse_answer count s.regs)⟩

theorem issue_inv {t : Transaction} {s u : State} (inv : s.Inv) (h : issue t s = .next u) : u.Inv := by
  cases phase : s.phase with
  | held =>
    rw [issue_held phase] at h
    refine transact_inv ?_ h
    exact ⟨inv.regs, trivial, inv.responses⟩
  | idle =>
    rw [issue_idle phase] at h
    exact transact_inv inv h
  | taking w taken =>
    rw [issue_taking phase] at h
    cases h
  | sending sent rest =>
    have legal := inv.phase
    rw [phase] at legal
    rw [issue_sending phase] at h
    refine transact_inv ?_ h
    exact ⟨inv.regs, trivial, legalResponses_append inv.responses legal.2⟩

theorem EdgeEffect.inv {s u : State} (h : EdgeEffect s u) (inv : s.Inv) : u.Inv := by
  cases h with
  | waits stall => exact ⟨inv.regs, inv.phase, inv.responses⟩
  | releases => exact ⟨inv.regs, trivial, inv.responses⟩
  | gathers _ short => exact ⟨inv.regs, short, inv.responses⟩
  | @performs w opds _ count =>
    have legal := legalResponse_answer (t := ⟨w, opds⟩) count s.regs
    exact ⟨answer_inv (t := ⟨w, opds⟩) count inv.regs, ⟨legal.ne_nil, legal⟩, inv.responses⟩
  | @sends sent rest phase =>
    have legal := inv.phase
    rw [phase] at legal
    rcases transferBeat_cases sent rest s with ⟨b, more, left, rfl, h⟩ | h
    · rw [h]
      exact ⟨inv.regs, ⟨left, by simpa using legal.2⟩, inv.responses⟩
    · rw [h]
      exact ⟨inv.regs, trivial, legalResponses_append inv.responses legal.2⟩

theorem portEdge_inv {p : PortIn} {s u : State} (inv : s.Inv) (h : portEdge p s = .next u) :
    u.Inv := by
  cases rst : p.rstN with
  | false =>
    rw [portEdge_reset rst] at h
    cases h
    exact ⟨registers_reset_inv, trivial, inv.responses⟩
  | true => exact (edgeEffect_of_portEdge rst h).inv inv

/-- The invariant does not speak of the host's inputs. -/
theorem State.Inv.withInbox {s : State} (inv : s.Inv) (l : List HostInput) :
    ({ s with inbox := l } : State).Inv :=
  ⟨inv.regs, inv.phase, inv.responses⟩

theorem step_inv {s u : State} (inv : s.Inv) (h : step s = .next u) : u.Inv := by
  cases inbox : s.inbox with
  | nil =>
    rw [step_nil inbox] at h
    cases h
    exact inv
  | cons input rest =>
    cases input with
    | transaction t =>
      rw [step_transaction inbox] at h
      exact issue_inv (inv.withInbox rest) h
    | clockEdge p =>
      rw [step_clockEdge inbox] at h
      exact portEdge_inv (inv.withInbox rest) h

theorem reset_inv : State.reset.Inv :=
  ⟨registers_reset_inv, trivial, fun _ h => nomatch h⟩

theorem Reachable.inv {s : State} (h : Reachable s) : s.Inv := by
  induction h with
  | reset => exact reset_inv
  | issue _ _ run ih => exact step_inv (ih.withInbox _) run

/-- Settles O39: a whole transaction is carried out on a settled block, and an edge resets the block or
has one of five effects. -/
theorem stepKeepsTheInvariant : Obligations.StepKeepsTheInvariant := by
  unfold Obligations.StepKeepsTheInvariant
  exact fun _ _ => step_inv

/-- Settles O40: the frame register is empty and no response stands there yet. -/
theorem resetMeetsTheInvariant : Obligations.ResetMeetsTheInvariant := by
  unfold Obligations.ResetMeetsTheInvariant
  exact reset_inv

/-- Settles O41: the invariant holds at reset and every step keeps it. -/
theorem validFrameIsConsistentInEveryRun : Obligations.ValidFrameIsConsistentInEveryRun := by
  unfold Obligations.ValidFrameIsConsistentInEveryRun
  intro s reached valid
  have frame := reached.inv.regs.frame
  exact ⟨frame.payLength, frame.atMost, frame.checksum valid⟩

/-- Settles O44: R35 is how the reset state is written. -/
theorem resetValues : Obligations.ResetValues := by
  unfold Obligations.ResetValues
  exact ⟨rfl, rfl, rfl, rfl, rfl, rfl, rfl, rfl⟩

/-! ### The ports against the transaction level (R76) -/

/-- Carrying out a well-formed transaction at rest records its answer. -/
theorem step_atRest_issuing {w : CommandWord} {opds : List OperandWord} (count : opds.length = need w)
    (s : State) :
    step (s.atRest.issuing w opds) = .next (s.atRest.complete (answer ⟨w, opds⟩ s.regs)) :=
  (step_issuing rfl w opds).trans (transact_of_count (t := ⟨w, opds⟩) count s.atRest)

theorem view_ext {s u : State} (regs : u.regs = s.regs) (rsps : u.allResponses = s.allResponses) :
    u.view = s.view :=
  Prod.ext regs rsps

theorem transferBeat_view {s : State} {sent rest : List Byte} (phase : s.phase = .sending sent rest) :
    (transferBeat sent rest s).view = s.view := by
  have before := allResponses_sending phase
  rcases transferBeat_cases sent rest s with ⟨b, more, -, rfl, h⟩ | h
  · rw [h]
    exact view_ext rfl (by rw [before, allResponses_sending rfl]; simp)
  · rw [h]
    exact view_ext rfl (by rw [before, allResponses_idle rfl]; rfl)

/-- Settles O47: of the five effects of an edge, only the one that takes a transaction's last word
changes the view. -/
theorem everyEdgeStuttersOrCarriesOutOneTransaction :
    Obligations.EveryEdgeStuttersOrCarriesOutOneTransaction := by
  unfold Obligations.EveryEdgeStuttersOrCarriesOutOneTransaction
  intro s u p _ rst h
  cases edgeEffect_of_portEdge rst h with
  | waits stall => exact .inl rfl
  | releases held => exact .inl (view_ext rfl (allResponses_held held).symm)
  | gathers quiet _ => exact .inl (view_ext rfl quiet.symm)
  | @performs w opds quiet count =>
    refine .inr ⟨w, opds, _, count, step_atRest_issuing count s, view_ext rfl ?_⟩
    rw [allResponses_sending rfl, allResponses_idle rfl, State.complete_responses,
      State.atRest_responses, quiet]
    rfl
  | sends phase => exact .inl (transferBeat_view phase)

end Sys2Proof.Machine
end

section
/-! PROOFS. What no host can observe (10_state.md R31, R35): the frame registers while FRM_VALID is 0, and
STATUS by any command but STAT.READ. -/

namespace Sys2Proof.Machine

/-! ### Registers that a host cannot tell apart (R35) -/

/-- The registers are equal, or FRM_VALID is 0 and they differ in the frame registers only. -/
def RegsBlind (r q : Registers) : Prop :=
  r = q ∨ (r.valid = false ∧
    ∃ id cmd len pay chk,
      q = { r with fid := id, fcmd := cmd, flen := len, fpay := pay, fchk := chk })

/-- The registers of two results cannot be told apart, and the responses are equal. -/
def ResultBlind (x y : Result) : Prop := RegsBlind x.regs y.regs ∧ x.rsp = y.rsp

section Blind

variable {r q : Registers}

theorem RegsBlind.refl (r : Registers) : RegsBlind r r := .inl rfl

theorem RegsBlind.eq_or_noFrame (h : RegsBlind r q) :
    r = q ∨ (r.valid = false ∧ q.valid = false) := by
  rcases h with rfl | ⟨noFrame, _, _, _, _, _, rfl⟩
  · exact .inl rfl
  · exact .inr ⟨noFrame, noFrame⟩

theorem RegsBlind.crc_eq (h : RegsBlind r q) : q.crc = r.crc := by
  rcases h with rfl | ⟨-, _, _, _, _, _, rfl⟩
  · rfl
  · rfl

theorem RegsBlind.status_eq (h : RegsBlind r q) : q.status = r.status := by
  rcases h with rfl | ⟨-, _, _, _, _, _, rfl⟩
  · rfl
  · rfl

theorem RegsBlind.withStatus (h : RegsBlind r q) (v : Byte) :
    RegsBlind (r.withStatus v) (q.withStatus v) := by
  rcases h with rfl | ⟨noFrame, _, _, _, _, _, rfl⟩
  · exact .refl _
  · exact .inr ⟨noFrame, _, _, _, _, _, rfl⟩

theorem RegsBlind.withCrc (h : RegsBlind r q) (c : Half) : RegsBlind (r.withCrc c) (q.withCrc c) := by
  rcases h with rfl | ⟨noFrame, _, _, _, _, _, rfl⟩
  · exact .refl _
  · exact .inr ⟨noFrame, _, _, _, _, _, rfl⟩

theorem RegsBlind.invalidate (h : RegsBlind r q) : RegsBlind r.invalidate q.invalidate := by
  rcases h with rfl | ⟨-, _, _, _, _, _, rfl⟩
  · exact .refl _
  · exact .inr ⟨rfl, _, _, _, _, _, rfl⟩

/-- A stored frame replaces everything in which they differ. -/
theorem RegsBlind.withFrame (h : RegsBlind r q) (id cmd : Byte) (pay : List Byte) :
    r.withFrame id cmd pay = q.withFrame id cmd pay := by
  rcases h with rfl | ⟨-, _, _, _, _, _, rfl⟩
  · rfl
  · rfl

theorem finishOk_blind (h : RegsBlind r q) (data : List Byte) :
    ResultBlind (finishOk data r) (finishOk data q) :=
  ⟨h.withStatus _, rfl⟩

theorem raise_blind (h : RegsBlind r q) (e : StatusCode) : ResultBlind (raise e r) (raise e q) :=
  ⟨h.withStatus _, rfl⟩

/-! ### No command tells them apart -/

theorem loadFrame_blind (h : RegsBlind r q) (cfg : Config) (id cmd : OperandWord)
    (pay : List OperandWord) :
    ResultBlind (loadFrame cfg id cmd pay r) (loadFrame cfg id cmd pay q) := by
  unfold loadFrame
  split_ifs
  · exact raise_blind h.invalidate _
  · rw [h.withFrame]
    exact ⟨.refl _, rfl⟩
  · exact raise_blind h.invalidate _

/-- A command that raises NoFrame without a frame cannot tell them apart. -/
theorem blind_of_noFrame {f : Registers → Result} (h : RegsBlind r q)
    (noFrame : ∀ p : Registers, p.valid = false → f p = raise .noFrame p) :
    ResultBlind (f r) (f q) := by
  rcases h.eq_or_noFrame with rfl | ⟨invalid, invalid'⟩
  · exact ⟨.refl _, rfl⟩
  · rw [noFrame r invalid, noFrame q invalid']
    exact raise_blind h _

theorem effect_blind (h : RegsBlind r q) (i : Instr) : ResultBlind (effect i r) (effect i q) := by
  cases i with
  | crcInit => exact finishOk_blind (h.withCrc _) _
  | crcUpdate b =>
    simp only [effect, h.crc_eq]
    exact finishOk_blind (h.withCrc _) _
  | crcRead =>
    simp only [effect, h.crc_eq]
    exact finishOk_blind h _
  | frmLoad id cmd pay => exact loadFrame_blind h _ id cmd pay
  | frmEncode => exact blind_of_noFrame h fun p invalid => if_neg (Bool.eq_false_iff.mp invalid)
  | frmDecode raw =>
    exact blind_of_noFrame (f := checkFrame _ raw) h fun p invalid => if_pos invalid
  | frmRead => exact blind_of_noFrame h fun p invalid => if_neg (Bool.eq_false_iff.mp invalid)
  | statRead => exact ⟨h, by simp only [effect, finishWithoutWrite_rsp, h.status_eq]⟩

theorem answer_blind (h : RegsBlind r q) (t : Transaction) : ResultBlind (answer t r) (answer t q) := by
  unfold answer
  split
  · exact effect_blind h _
  · exact raise_blind h _

end Blind

/-! ### No step tells them apart -/

/-- The state with other registers. -/
def State.withRegs (s : State) (q : Registers) : State := { s with regs := q }

theorem frameBlind_withRegs {s : State} {q : Registers} (h : RegsBlind s.regs q) :
    FrameBlind s (s.withRegs q) := by
  rcases h with rfl | ⟨noFrame, _, _, _, _, _, rfl⟩
  · exact .inl rfl
  · exact .inr ⟨noFrame, _, _, _, _, _, rfl⟩

theorem exists_withRegs_of_frameBlind {s u : State} (h : FrameBlind s u) :
    ∃ q, RegsBlind s.regs q ∧ u = s.withRegs q := by
  rcases h with rfl | ⟨noFrame, _, _, _, _, _, rfl⟩
  · exact ⟨s.regs, .refl _, rfl⟩
  · exact ⟨_, .inr ⟨noFrame, _, _, _, _, _, rfl⟩, rfl⟩

theorem sameOutcome_frameBlind_refl (o : Host.Outcome State Fault Refusal) :
    SameOutcome FrameBlind o o := by
  cases o with
  | next s => exact .inl rfl
  | fault f => rfl
  | refused c => rfl

section Step

variable {s : State} {q : Registers} (h : RegsBlind s.regs q)
include h

theorem transact_blind (t : Transaction) :
    SameOutcome FrameBlind (transact t s) (transact t (s.withRegs q)) := by
  by_cases count : t.operands.length = need t.word
  · obtain ⟨regs, rsp⟩ := answer_blind h t
    rw [transact_of_count count, transact_of_count count, State.complete, State.complete, rsp]
    exact frameBlind_withRegs (s := { s with regs := _, responses := _ }) regs
  · rw [transact_of_wrong_count count, transact_of_wrong_count count]
    rfl

theorem perform_blind (t : Transaction) :
    SameOutcome FrameBlind (perform t s) (perform t (s.withRegs q)) := by
  by_cases count : t.operands.length = need t.word
  · obtain ⟨regs, rsp⟩ := answer_blind h t
    rw [perform_of_count count, perform_of_count count, rsp]
    exact frameBlind_withRegs (s := State.enter { s with regs := _ } _) regs
  · rw [perform, perform, transact_of_wrong_count count, transact_of_wrong_count count]
    rfl

theorem gather_blind (w : CommandWord) (taken : List OperandWord) :
    SameOutcome FrameBlind (gather w taken s) (gather w taken (s.withRegs q)) := by
  unfold gather
  split
  · exact frameBlind_withRegs (s := s.enter _) h
  · exact perform_blind h _

theorem transferBeat_blind (sent rest : List Byte) :
    FrameBlind (transferBeat sent rest s) (transferBeat sent rest (s.withRegs q)) := by
  unfold transferBeat
  split
  · exact frameBlind_withRegs (s := s.enter _) h
  · exact frameBlind_withRegs (s := State.enter { s with responses := _ } _) h

theorem transferEdge_blind (p : PortIn) :
    SameOutcome FrameBlind (transferEdge p s) (transferEdge p (s.withRegs q)) := by
  have waits : FrameBlind s (s.withRegs q) := frameBlind_withRegs h
  cases phase : s.phase with
  | held =>
    rw [transferEdge_held phase, transferEdge_held (s := s.withRegs q) phase]
    exact frameBlind_withRegs (s := { s with phase := _, stall := _ }) h
  | idle =>
    rw [transferEdge_idle phase, transferEdge_idle (s := s.withRegs q) phase]
    split
    · exact gather_blind h _ _
    · exact waits
  | taking w taken =>
    rw [transferEdge_taking phase, transferEdge_taking (s := s.withRegs q) phase]
    split
    · exact gather_blind h _ _
    · exact waits
  | sending sent rest =>
    rw [transferEdge_sending phase, transferEdge_sending (s := s.withRegs q) phase]
    split
    · exact transferBeat_blind h sent rest
    · exact waits

theorem portEdge_blind (p : PortIn) :
    SameOutcome FrameBlind (portEdge p s) (portEdge p (s.withRegs q)) := by
  unfold portEdge
  split
  · exact sameOutcome_frameBlind_refl _
  · change SameOutcome FrameBlind _ (if s.live then _ else _)
    split
    · exact transferEdge_blind h p
    · exact frameBlind_withRegs (s := { s with stall := _ }) h

/-- The registers play no part in what a host waits for. -/
theorem issue_blind (t : Transaction) :
    SameOutcome FrameBlind (issue t s) (issue t (s.withRegs q)) := by
  cases phase : s.phase with
  | held =>
    rw [issue_held phase, issue_held (s := s.withRegs q) phase]
    exact transact_blind (s := { s with phase := .idle, stall := 0 }) h t
  | idle =>
    rw [issue_idle phase, issue_idle (s := s.withRegs q) phase]
    exact transact_blind h t
  | taking w taken =>
    rw [issue_taking phase, issue_taking (s := s.withRegs q) phase]
    rfl
  | sending sent rest =>
    rw [issue_sending phase, issue_sending (s := s.withRegs q) phase]
    exact transact_blind
      (s := { s with phase := .idle, responses := s.responses ++ [sent ++ rest] }) h t

theorem step_blind : SameOutcome FrameBlind (step s) (step (s.withRegs q)) := by
  cases inbox : s.inbox with
  | nil =>
    rw [step_nil inbox, step_nil (s := s.withRegs q) inbox]
    exact frameBlind_withRegs h
  | cons input rest =>
    cases input with
    | transaction t =>
      rw [step_transaction inbox, step_transaction (s := s.withRegs q) inbox]
      exact issue_blind (s := { s with inbox := rest }) h t
    | clockEdge p =>
      rw [step_clockEdge inbox, step_clockEdge (s := s.withRegs q) inbox]
      exact portEdge_blind (s := { s with inbox := rest }) h p

end Step

/-- Settles O35: two such states differ in their registers alone, no step tells those apart, and neither
the outputs nor the responses depend on them. -/
theorem frameRegistersAreUnobservableWithoutAFrame :
    Obligations.FrameRegistersAreUnobservableWithoutAFrame := by
  unfold Obligations.FrameRegistersAreUnobservableWithoutAFrame
  intro s u h
  obtain ⟨q, regs, rfl⟩ := exists_withRegs_of_frameBlind h
  exact ⟨step_blind regs, rfl, rfl⟩

/-! ### STATUS (R31) -/

/-- No command but STAT.READ depends on STATUS: each of them overwrites it and reads other registers. -/
theorem effect_withStatus {i : Instr} (other : i ≠ .statRead) (r : Registers) (v : Byte) :
    effect i (r.withStatus v) = effect i r := by
  cases i with
  | crcInit => rfl
  | crcUpdate b => rfl
  | crcRead => rfl
  | frmLoad id cmd pay => rfl
  | frmEncode => rfl
  | frmDecode raw => rfl
  | frmRead => rfl
  | statRead => exact absurd rfl other

/-- Settles O34: the effect of every command but STAT.READ is the same, and STAT.READ shows STATUS in
its data byte. -/
theorem noCommandDependsOnStatus : Obligations.NoCommandDependsOnStatus := by
  unfold Obligations.NoCommandDependsOnStatus
  refine ⟨fun i s v other => ?_, fun s v => exec_eq_after .statRead _⟩
  have same := effect_withStatus other s.regs v
  rw [exec_eq_after, exec_eq_after i s, ← same]
  rfl

end Sys2Proof.Machine
end

section
/-! PROOFS. The CRC and the codec (40_crc.md R102, R107 to R109; 41_frame.md R122, R123): the table form of
a step, the residue, and the detection of a single wrong byte. -/

namespace Sys2Proof.Machine

/-! ### The table form (R102) -/

theorem lowMask_getLsbD : ∀ k < 16, (0x00FF#16).getLsbD k = decide (k < 8) := by decide

/-- A byte has no bit in the high half. -/
theorem xor_byte_shiftRight (c : Half) (b : Byte) : (c ^^^ b.setWidth 16) >>> 8 = c >>> 8 := by
  apply BitVec.eq_of_getLsbD_eq
  intro k _
  simp [BitVec.getLsbD_ushiftRight]

theorem setWidth_setWidth_low (x : Half) :
    ((x &&& 0x00FF#16).setWidth 8).setWidth 16 = x &&& 0x00FF#16 := by
  apply BitVec.eq_of_getLsbD_eq
  intro k hk
  simp only [BitVec.getLsbD_setWidth, BitVec.getLsbD_and, lowMask_getLsbD k hk, hk]
  by_cases low : k < 8 <;> simp [low]

/-- Eight passes shift the high half down, and add what the low half alone gives. -/
theorem crcBits_eight (x : Half) :
    Nat.iterate crcBit 8 x = (x >>> 8) ^^^ Nat.iterate crcBit 8 (x &&& 0x00FF#16) := by
  have high : Nat.iterate crcBit 8 (x ^^^ (x &&& 0x00FF#16)) = x >>> 8 := by
    rw [crcBits_of_low_zero 8, ← setWidth_setWidth_low, xor_byte_shiftRight]
    intro k hk
    rw [BitVec.getLsbD_xor, BitVec.getLsbD_and, lowMask_getLsbD k (by omega)]
    simp [hk]
  rw [← high, ← crcBits_xor, BitVec.xor_assoc, BitVec.xor_self, BitVec.xor_zero]

theorem crcStep_table_form (c : Half) (b : Byte) :
    crcStep c b =
      (c >>> 8) ^^^ crcStep 0x0000#16 (((c ^^^ b.setWidth 16) &&& 0x00FF#16).setWidth 8) := by
  rw [crcStep, crcBits_eight, xor_byte_shiftRight, crcStep, setWidth_setWidth_low, BitVec.zero_xor]

/-- Settles O8: the high half of the running value only moves down, since a pass is linear. -/
theorem crcStepIsTheTableForm : Obligations.CrcStepIsTheTableForm := by
  unfold Obligations.CrcStepIsTheTableForm
  exact ⟨crcStep_table_form, by decide +kernel⟩

/-- Settles O11: one evaluation of the nine steps. -/
theorem crcCheckValueIs4B37 : Obligations.CrcCheckValueIs4B37 := by
  unfold Obligations.CrcCheckValueIs4B37
  decide +kernel

/-! ### The residue (R107) -/

theorem xor_lo8_low (c : Half) {k : Nat} (hk : k < 8) :
    (c ^^^ (lo8 c).setWidth 16).getLsbD k = false := by
  simp [lo8, hk, show k < 16 from by omega]

theorem shiftRight_eq_hi8 (c : Half) : c >>> 8 = (hi8 c).setWidth 16 := by
  apply BitVec.eq_of_getLsbD_eq
  intro k hk
  by_cases low : k < 8
  · simp [hi8, hk, low]
  · simp [hi8, low, BitVec.getLsbD_of_ge c (8 + k) (by omega)]

/-- The low byte of the running value cancels, and leaves its high byte. -/
theorem crcStep_lo8 (c : Half) : crcStep c (lo8 c) = (hi8 c).setWidth 16 := by
  rw [crcStep, crcBits_of_low_zero 8 _ fun _ => xor_lo8_low c, xor_byte_shiftRight, shiftRight_eq_hi8]

/-- A byte cancels itself. -/
theorem crcStep_self (b : Byte) : crcStep (b.setWidth 16) b = 0x0000#16 := by
  rw [crcStep, BitVec.xor_self]
  decide

theorem crcFold_halves (c : Half) : crcFold c [lo8 c, hi8 c] = 0x0000#16 := by
  rw [crcFold_cons, crcStep_lo8, crcFold_cons, crcStep_self, crcFold_nil]

theorem crc16_residue (s : List Byte) : crc16 (s ++ [lo8 (crc16 s), hi8 (crc16 s)]) = 0x0000#16 := by
  rw [crc16_append, crcFold_halves]

theorem crc16_encodeFrame (id cmd : Byte) (pay : List Byte) :
    crc16 (encodeFrame id cmd pay) = 0x0000#16 :=
  crc16_residue (id :: cmd :: pay)

/-- Settles O10: the running value's own bytes cancel it, low byte first. -/
theorem crcResidueIsZero : Obligations.CrcResidueIsZero := by
  unfold Obligations.CrcResidueIsZero
  exact ⟨crc16_residue, crc16_encodeFrame⟩

/-! ### A single wrong byte (R109) -/

/-- Sequences that differ in one byte have different CRCs. -/
theorem crc16_middle_injective {s rest : List Byte} {a b : Byte}
    (h : crc16 (s ++ a :: rest) = crc16 (s ++ b :: rest)) : a = b := by
  rw [crc16_append, crc16_append, crcFold_cons, crcFold_cons] at h
  exact crcStep_injective_byte _ (crcFold_injective rest h)

theorem crc16_set_ne {s : List Byte} {k : Nat} {b : Byte} (hk : k < s.length)
    (wrong : b ≠ s.getD k 0#8) : crc16 (s.set k b) ≠ crc16 s := by
  intro same
  have parts : s = s.take k ++ s.getD k 0#8 :: s.drop (k + 1) := by
    rw [List.getD_eq_getElem s _ hk, List.getElem_cons_drop, List.take_append_drop]
  rw [List.set_eq_take_append_cons_drop, if_pos hk] at same
  exact wrong (crc16_middle_injective (same.trans (congrArg crc16 parts)))

/-- A sequence that ends with its own CRC has the residue 0. -/
theorem crc16_of_checksum {raw : List Byte} (enough : 4 ≤ raw.length)
    (sum : computedCrc raw = receivedChecksum raw) : crc16 raw = 0x0000#16 := by
  obtain ⟨id, cmd, pay, a, b, rfl⟩ := frame_parts raw enough
  have halves : crc16 (id :: cmd :: pay) = le16 a b :=
    (computedCrc_append _ a b).symm.trans (sum.trans (receivedChecksum_append (id :: cmd :: pay) a b))
  have residue := crc16_residue (id :: cmd :: pay)
  rwa [halves, lo8_le16, hi8_le16] at residue

/-- With one wrong byte an encoded frame has lost its residue, and so its checksum does not match. -/
theorem checksum_ne_of_wrong_byte {id cmd : Byte} {pay : List Byte} {k : Nat} {b : Byte}
    (hk : k < (encodeFrame id cmd pay).length)
    (wrong : b ≠ (encodeFrame id cmd pay).getD k 0#8) :
    computedCrc ((encodeFrame id cmd pay).set k b) ≠
      receivedChecksum ((encodeFrame id cmd pay).set k b) := by
  intro sum
  have enough : 4 ≤ ((encodeFrame id cmd pay).set k b).length := by simp
  apply crc16_set_ne hk wrong
  rw [crc16_of_checksum enough sum, crc16_encodeFrame]

/-- Settles O12: a step loses neither the byte nor the running value, and a wrong byte destroys the
residue of a frame. -/
theorem singleWrongByteIsDetected : Obligations.SingleWrongByteIsDetected := by
  unfold Obligations.SingleWrongByteIsDetected
  exact ⟨fun _ _ _ => crc16_set_ne, fun _ _ _ _ _ => checksum_ne_of_wrong_byte⟩

/-! ### The codec (R122, R123) -/

theorem decodeFrame_encodeFrame (id cmd : Byte) (pay : List Byte) :
    decodeFrame id cmd (encodeFrame id cmd pay) = .ok pay (crc16 (id :: cmd :: pay)) := by
  have sum : computedCrc (encodeFrame id cmd pay) = receivedChecksum (encodeFrame id cmd pay) := by
    rw [computedCrc_encodeFrame, receivedChecksum_encodeFrame]
  have header : (encodeFrame id cmd pay).getD 0 0#8 = id ∧ (encodeFrame id cmd pay).getD 1 0#8 = cmd :=
    ⟨rfl, rfl⟩
  have payload : receivedPayload (encodeFrame id cmd pay) = pay := receivedPayload_append _ _ _ _ _
  rw [decodeFrame, if_neg (not_not.mpr sum), if_neg (not_not.mpr header.1),
    if_neg (not_not.mpr header.2), payload, receivedChecksum_encodeFrame]

/-- Settles O13: the three comparisons succeed on an encoded frame. -/
theorem decodeOfEncodedFrameGivesThePayload : Obligations.DecodeOfEncodedFrameGivesThePayload := by
  unfold Obligations.DecodeOfEncodedFrameGivesThePayload
  exact decodeFrame_encodeFrame

/-- Settles O14: the checksum is compared first, and it does not match. -/
theorem oneWrongByteGivesChecksumMismatch : Obligations.OneWrongByteGivesChecksumMismatch := by
  unfold Obligations.OneWrongByteGivesChecksumMismatch
  exact fun _ _ _ _ _ hk wrong => if_pos (checksum_ne_of_wrong_byte hk wrong)

end Sys2Proof.Machine
end

section
/-! PROOFS. Which command writes which register (10_state.md R34), the read commands repeated
(20_memory.md R47), and FRM.ENCODE with FRM.DECODE (41_frame.md R130, R138; 70_reset_and_hazards.md
R197). -/

namespace Sys2Proof.Machine

/-! ### The frame register -/

/-- `q` is `r` but for CRC and STATUS: it holds the same frame. -/
def SameFrame (r q : Registers) : Prop := q = { r with crc := q.crc, status := q.status }

theorem SameFrame.refl (r : Registers) : SameFrame r r := rfl

theorem SameFrame.withCrc {r q : Registers} (h : SameFrame r q) (c : Half) :
    SameFrame r (q.withCrc c) :=
  congrArg (Registers.withCrc · c) h

theorem SameFrame.withStatus {r q : Registers} (h : SameFrame r q) (v : Byte) :
    SameFrame r (q.withStatus v) :=
  congrArg (Registers.withStatus · v) h

theorem sameFrame_iff_exists {r q : Registers} :
    SameFrame r q ↔ ∃ c v, q = { r with crc := c, status := v } := by
  constructor
  · exact fun h => ⟨q.crc, q.status, h⟩
  · rintro ⟨c, v, rfl⟩
    rfl

theorem SameFrame.trans {r q p : Registers} (h : SameFrame r q) (h' : SameFrame q p) :
    SameFrame r p := by
  obtain ⟨c, v, rfl⟩ := sameFrame_iff_exists.mp h
  exact h'

theorem emitFrame_of_noFrame {r : Registers} (invalid : r.valid = false) :
    emitFrame r = raise .noFrame r :=
  if_neg (Bool.eq_false_iff.mp invalid)

/-- FRM.ENCODE answers the same for the same frame. -/
theorem emitFrame_rsp_of_sameFrame {r q : Registers} (h : SameFrame r q) :
    (emitFrame q).rsp = (emitFrame r).rsp := by
  obtain ⟨c, v, rfl⟩ := sameFrame_iff_exists.mp h
  rcases emitFrame_cases r with ⟨valid, same⟩ | ⟨invalid, same⟩
  · rw [same, emitFrame_of_valid (r := { r with crc := c, status := v }) valid]
    rfl
  · rw [same, emitFrame_of_noFrame (r := { r with crc := c, status := v }) invalid]
    rfl

/-! ### What each command writes (R34) -/

theorem StatusCode.code_ne_zero {e : StatusCode} (failed : e ≠ .ok) : e.code ≠ 0x00#8 := by
  revert failed
  cases e <;> decide

/-- A load ends with OK, or with an error and FRM_VALID = 0 (R126, R128). -/
theorem loadFrame_ok_or_invalidates (cfg : Config) (id cmd : OperandWord) (pay : List OperandWord)
    (r : Registers) :
    (loadFrame cfg id cmd pay r).regs.status = 0x00#8 ∨
      ∃ v, (loadFrame cfg id cmd pay r).regs = { r with valid := false, status := v } := by
  rcases loadFrame_stores_or_raises cfg id cmd pay r with ⟨-, h⟩ | ⟨e, -, h⟩
  · exact .inl (by rw [h]; rfl)
  · exact .inr ⟨e.code, by rw [h]; rfl⟩

/-- FRM.DECODE fails and writes CRC and STATUS at most, or it stores a frame whose checksum and header
match (R134 to R136). -/
theorem checkFrame_fails_or_stores (cfg : Config) (opds : List OperandWord) (r : Registers) :
    (∃ e c, e ≠ .ok ∧ checkFrame cfg opds r = raise e (r.withCrc c)) ∨
    (r.valid = true ∧ 4 ≤ opds.length ∧
      computedCrc (opds.map operandByte) = receivedChecksum (opds.map operandByte) ∧
      (opds.map operandByte).getD 0 0#8 = r.fid ∧ (opds.map operandByte).getD 1 0#8 = r.fcmd ∧
      checkFrame cfg opds r = finishOk (receivedPayload (opds.map operandByte))
        ((r.withCrc (computedCrc (opds.map operandByte))).withResponse
          (receivedPayload (opds.map operandByte)) (receivedChecksum (opds.map operandByte)))) := by
  rcases checkFrame_cases cfg opds r with ⟨-, h⟩ | ⟨-, -, h⟩ | ⟨-, -, -, h⟩ | ⟨-, -, -, -, h⟩ |
    ⟨valid, enough, -, -, stage⟩
  · exact .inl ⟨_, r.crc, by decide, h⟩
  · exact .inl ⟨_, r.crc, by decide, h⟩
  · exact .inl ⟨_, r.crc, by decide, h⟩
  · exact .inl ⟨_, r.crc, by decide, h⟩
  · rcases acceptFrame_cases (opds.map operandByte) r with ⟨e, he, -, h⟩ | ⟨sum, id, cmd, h⟩
    · exact .inl ⟨e, _, by rcases he with rfl | rfl | rfl <;> decide, stage.trans h⟩
    · exact .inr ⟨valid, enough, sum, id, cmd, stage.trans h⟩

theorem emitFrame_sameFrame (r : Registers) : SameFrame r (emitFrame r).regs := by
  rcases emitFrame_cases r with ⟨-, h⟩ | ⟨-, h⟩
  · rw [h]
    exact ((SameFrame.refl r).withCrc _).withStatus _
  · rw [h]
    exact (SameFrame.refl r).withStatus _

/-- FRM.READ writes STATUS, with the code of its two outcomes (R139). -/
theorem readFrame_regs (r : Registers) :
    (readFrame r).regs = { r with status := if r.valid then 0x00#8 else 0x07#8 } := by
  rcases readFrame_cases r with ⟨valid, h⟩ | ⟨invalid, h⟩
  · rw [h, if_pos valid]
    rfl
  · rw [h, if_neg (Bool.eq_false_iff.mp invalid)]
    rfl

/-- Only FRM.LOAD and a successful FRM.DECODE write the frame register. -/
theorem effect_sameFrame {i : Instr} (noLoad : isLoad i = false) {r : Registers}
    (failed : isDecode i = true → (effect i r).regs.status ≠ 0x00#8) :
    SameFrame r (effect i r).regs := by
  cases i with
  | crcInit => rfl
  | crcUpdate b => rfl
  | crcRead => rfl
  | frmLoad id cmd pay => cases noLoad
  | frmEncode => exact emitFrame_sameFrame r
  | frmDecode raw =>
    rcases checkFrame_fails_or_stores Config.hardware raw r with ⟨e, c, -, h⟩ | ⟨-, -, -, -, -, h⟩
    · rw [effect, h]
      exact ((SameFrame.refl r).withCrc c).withStatus _
    · exact absurd (congrArg (fun x => x.regs.status) h) (failed rfl)
  | frmRead =>
    rw [effect, readFrame_regs]
    rfl
  | statRead => rfl

/-- Only FRM.LOAD writes FRM_VALID, FRM_ID and FRM_CMD. -/
theorem effect_keeps_request {i : Instr} (noLoad : isLoad i = false) (r : Registers) :
    (effect i r).regs.valid = r.valid ∧ (effect i r).regs.fid = r.fid ∧
      (effect i r).regs.fcmd = r.fcmd := by
  by_cases failed : isDecode i = true → (effect i r).regs.status ≠ 0x00#8
  · obtain ⟨c, v, h⟩ := sameFrame_iff_exists.mp (effect_sameFrame noLoad failed)
    rw [h]
    exact ⟨rfl, rfl, rfl⟩
  · cases i with
    | frmDecode raw =>
      rcases checkFrame_fails_or_stores Config.hardware raw r with ⟨e, c, -, h⟩ | ⟨-, -, -, -, -, h⟩
      · rw [effect, h]
        exact ⟨rfl, rfl, rfl⟩
      · rw [effect, h]
        exact ⟨rfl, rfl, rfl⟩
    | frmLoad id cmd pay => cases noLoad
    | _ => exact absurd (fun decodes => nomatch decodes) failed

/-- The commands of a stream fold their byte into CRC and do not write it otherwise (R196). -/
theorem effect_crc_of_keepsStream {i : Instr} (keeps : keepsStream i = true) (r : Registers) :
    (effect i r).regs.crc = crcFold r.crc (updatedByte i).toList := by
  cases i with
  | crcInit => cases keeps
  | crcUpdate b => rfl
  | crcRead => rfl
  | frmLoad id cmd pay =>
    rcases loadFrame_stores_or_raises Config.hardware id cmd pay r with ⟨-, h⟩ | ⟨e, -, h⟩
    · rw [effect, h]
      rfl
    · rw [effect, h]
      rfl
  | frmEncode => cases keeps
  | frmDecode raw => cases keeps
  | frmRead =>
    rw [effect, readFrame_regs]
    rfl
  | statRead => rfl

theorem effect_crc_ne {i : Instr} {r : Registers} (changed : (effect i r).regs.crc ≠ r.crc) :
    i = .crcInit ∨ (∃ b, i = .crcUpdate b) ∨
      (i = .frmEncode ∧ (effect i r).regs.status = 0x00#8) ∨ isDecode i = true := by
  cases i with
  | crcInit => exact .inl rfl
  | crcUpdate b => exact .inr (.inl ⟨b, rfl⟩)
  | frmEncode =>
    rcases emitFrame_cases r with ⟨-, h⟩ | ⟨-, h⟩
    · exact .inr (.inr (.inl ⟨rfl, congrArg (fun x => x.regs.status) h⟩))
    · exact absurd (congrArg (fun x => x.regs.crc) h) changed
  | frmDecode raw => exact .inr (.inr (.inr rfl))
  | _ => exact absurd (effect_crc_of_keepsStream rfl r) changed

/-- A failed load clears FRM_VALID and writes no other frame register. -/
theorem effect_of_failed_load {i : Instr} (load : isLoad i = true) {r : Registers}
    (failed : (effect i r).regs.status ≠ 0x00#8) :
    ∃ v, (effect i r).regs = { r with valid := false, status := v } := by
  cases i with
  | frmLoad id cmd pay => exact (loadFrame_ok_or_invalidates _ id cmd pay r).resolve_left failed
  | _ => cases load

theorem effect_header_ne {i : Instr} {r : Registers}
    (changed : (effect i r).regs.fid ≠ r.fid ∨ (effect i r).regs.fcmd ≠ r.fcmd) :
    isLoad i = true ∧ (effect i r).regs.status = 0x00#8 := by
  by_contra other
  have same : (effect i r).regs.fid = r.fid ∧ (effect i r).regs.fcmd = r.fcmd := by
    cases load : isLoad i with
    | false => exact (effect_keeps_request load r).2
    | true =>
      obtain ⟨v, h⟩ := effect_of_failed_load load fun ok => other ⟨load, ok⟩
      rw [h]
      exact ⟨rfl, rfl⟩
  rcases changed with h | h
  · exact h same.1
  · exact h same.2

theorem effect_payload_ne {i : Instr} {r : Registers}
    (changed : (effect i r).regs.flen ≠ r.flen ∨ (effect i r).regs.fpay ≠ r.fpay ∨
      (effect i r).regs.fchk ≠ r.fchk) :
    (isLoad i = true ∨ isDecode i = true) ∧ (effect i r).regs.status = 0x00#8 := by
  by_contra other
  have same : (effect i r).regs.flen = r.flen ∧ (effect i r).regs.fpay = r.fpay ∧
      (effect i r).regs.fchk = r.fchk := by
    cases load : isLoad i with
    | false =>
      have failed (decodes : isDecode i = true) : (effect i r).regs.status ≠ 0x00#8 :=
        fun ok => other ⟨.inr decodes, ok⟩
      obtain ⟨c, v, h⟩ := sameFrame_iff_exists.mp (effect_sameFrame load failed)
      rw [h]
      exact ⟨rfl, rfl, rfl⟩
    | true =>
      obtain ⟨v, h⟩ := effect_of_failed_load load fun ok => other ⟨.inl load, ok⟩
      rw [h]
      exact ⟨rfl, rfl, rfl⟩
  rcases changed with h | h | h
  · exact h same.1
  · exact h same.2.1
  · exact h same.2.2

/-- Settles O32: one lemma for each column of R34. -/
theorem onlyTheListedCommandsWriteEachRegister : Obligations.OnlyTheListedCommandsWriteEachRegister := by
  unfold Obligations.OnlyTheListedCommandsWriteEachRegister
  intro i s u run
  obtain rfl := exec_next run
  refine ⟨effect_crc_ne, fun changed stat => ?_, fun changed => ?_, effect_header_ne, effect_payload_ne⟩
  · subst stat
    exact changed rfl
  · by_contra noLoad
    exact changed (effect_keeps_request (Bool.eq_false_iff.mpr noLoad) s.regs).1

/-! ### Read commands repeated (R47) -/

/-- A command that finds what its first run left as it was answers the same. -/
theorem same_response_of_repeated {i : Instr} {s t u : State} (first : exec i s = .next t)
    (second : exec i t = .next u) (same : (effect i t.regs).rsp = (effect i s.regs).rsp) :
    ∃ rsp, t.responses = s.responses ++ [rsp] ∧ u.responses = t.responses ++ [rsp] :=
  ⟨(effect i s.regs).rsp, by rw [exec_next first]; rfl, by rw [exec_next second, ← same]; rfl⟩

/-- FRM.READ does not depend on STATUS. -/
theorem readFrame_withStatus_rsp (r : Registers) (v : Byte) :
    (readFrame { r with status := v }).rsp = (readFrame r).rsp :=
  congrArg Result.rsp (effect_withStatus (i := .frmRead) (by decide) r v)

/-- Settles O33: what a read command writes, it does not read, STAT.READ writing nothing. -/
theorem readCommandsRepeatTheirResponse : Obligations.ReadCommandsRepeatTheirResponse := by
  unfold Obligations.ReadCommandsRepeatTheirResponse
  refine ⟨fun s t u first second => ?_, fun s t u first second => ?_, fun s t u first second => ?_⟩
  · have regs : t.regs = { s.regs with status := 0x00#8 } := by rw [exec_next first]; rfl
    exact ⟨regs, same_response_of_repeated first second (by rw [regs]; rfl)⟩
  · have regs : t.regs = { s.regs with status := if s.regs.valid then 0x00#8 else 0x07#8 } := by
      rw [exec_next first]
      exact readFrame_regs s.regs
    exact ⟨regs, same_response_of_repeated first second
      (by rw [regs]; exact readFrame_withStatus_rsp s.regs _)⟩
  · have regs : t.regs = s.regs := by rw [exec_next first]; rfl
    exact ⟨regs, same_response_of_repeated first second (by rw [regs])⟩

/-! ### FRM.ENCODE and FRM.DECODE together (R130, R138, R197) -/

/-- Settles O22: a status byte, the header, FRM_LEN bytes and the checksum. -/
theorem encodeResponseLengthIsFiveMoreThanThePayload :
    Obligations.EncodeResponseLengthIsFiveMoreThanThePayload := by
  unfold Obligations.EncodeResponseLengthIsFiveMoreThanThePayload
  intro s valid inv
  refine ⟨_, _, exec_of_effect (i := .frmEncode) (emitFrame_of_valid valid), rfl, ?_⟩
  rw [finishOk_rsp, List.length_cons, encodeFrame_length, inv.payLength]
  omega

/-- A received frame whose checksum matches is the encoding of its header and payload. -/
theorem encodeFrame_of_checksum {raw : List Byte} (enough : 4 ≤ raw.length)
    (sum : computedCrc raw = receivedChecksum raw) :
    encodeFrame (raw.getD 0 0#8) (raw.getD 1 0#8) (receivedPayload raw) = raw := by
  obtain ⟨id, cmd, pay, a, b, rfl⟩ := frame_parts raw enough
  have halves : crc16 (id :: cmd :: pay) = le16 a b :=
    (computedCrc_append _ a b).symm.trans (sum.trans (receivedChecksum_append (id :: cmd :: pay) a b))
  simp only [encodeFrame, receivedPayload_append, List.getD_cons_zero, List.getD_cons_succ, halves,
    lo8_le16, hi8_le16, List.cons_append]

/-- FRM.ENCODE writes nothing new when CRC holds the checksum and STATUS is 0x00. -/
theorem emitFrame_of_settled {r : Registers} (valid : r.valid = true)
    (crc : r.crc = crc16 (r.fid :: r.fcmd :: r.fpay)) (status : r.status = 0x00#8) :
    emitFrame r = ⟨r, 0x00#8 :: encodeFrame r.fid r.fcmd r.fpay⟩ := by
  have regs : (r.withCrc r.crc).withStatus r.status = r := rfl
  rw [emitFrame_of_valid valid, ← crc, finishOk, show StatusCode.ok.code = r.status from status.symm,
    regs, status]

/-- Settles O27: the stored frame is the received one, whose encoding its bytes are; CRC and STATUS
already hold what FRM.ENCODE writes. -/
theorem encodeAfterDecodeSendsTheReceivedFrame : Obligations.EncodeAfterDecodeSendsTheReceivedFrame := by
  unfold Obligations.EncodeAfterDecodeSendsTheReceivedFrame
  intro s t opds run ok
  obtain rfl := exec_next run
  rcases checkFrame_fails_or_stores Config.hardware opds s.regs with
    ⟨e, c, failed, h⟩ | ⟨valid, enough, sum, id, cmd, h⟩
  · simp only [State.complete_regs, effect, h] at ok
    exact absurd ok (StatusCode.code_ne_zero failed)
  · have enough : 4 ≤ (opds.map operandByte).length := by rwa [List.length_map]
    have frame := encodeFrame_of_checksum enough sum
    have body := computedCrc_eq_crc16_body enough
    rw [id, cmd] at frame body
    rw [show effect (.frmDecode opds) s.regs = _ from h]
    refine ⟨_, exec_of_effect (i := .frmEncode) (emitFrame_of_settled valid body rfl), ?_, rfl⟩
    rw [State.after_responses]
    exact congrArg (fun bytes => _ ++ [0x00#8 :: bytes]) frame

/-- FRM.DECODE accepts the bytes that FRM.ENCODE emits. -/
theorem checkFrame_encodeFrame {cfg : Config} {r : Registers} (valid : r.valid = true)
    (fits : r.fpay.length ≤ cfg.maxPayload) :
    checkFrame cfg ((encodeFrame r.fid r.fcmd r.fpay).map byteOperand) r =
      finishOk r.fpay ((r.withCrc (crc16 (r.fid :: r.fcmd :: r.fpay))).withResponse r.fpay
        (crc16 (r.fid :: r.fcmd :: r.fpay))) := by
  have length : ((encodeFrame r.fid r.fcmd r.fpay).map byteOperand).length = r.fpay.length + 4 := by
    rw [List.length_map, encodeFrame_length]
  rw [checkFrame_of_fits valid (by omega) (by omega), if_pos (allBytesOk_byteOperands _),
    operandBytes_byteOperands, acceptFrame, decodeFrame_encodeFrame, computedCrc_encodeFrame]

/-- A consistent frame register already holds its payload, its length and its checksum. -/
theorem withResponse_self {cfg : Config} {r : Registers} (valid : r.valid = true)
    (inv : r.FrameInv cfg) :
    r.withResponse r.fpay (crc16 (r.fid :: r.fcmd :: r.fpay)) = r := by
  have length : BitVec.ofNat 16 r.fpay.length = r.flen := by
    rw [← inv.payLength, BitVec.ofNat_toNat, BitVec.setWidth_eq]
  rw [Registers.withResponse, length, ← inv.checksum valid]

/-- Settles O28: FRM.DECODE accepts the emitted bytes, and what it stores is what stood there. -/
theorem encodeThenDecodeKeepsTheFrame : Obligations.EncodeThenDecodeKeepsTheFrame := by
  unfold Obligations.EncodeThenDecodeKeepsTheFrame
  intro s valid inv
  have fits : s.regs.fpay.length ≤ Config.hardware.maxPayload := inv.payLength ▸ inv.atMost
  have encoded := exec_of_effect (i := .frmEncode) (emitFrame_of_valid valid)
  have decoded := checkFrame_encodeFrame (cfg := Config.hardware)
    (r := (s.regs.withCrc (crc16 (s.regs.fid :: s.regs.fcmd :: s.regs.fpay))).withStatus 0x00#8)
    valid fits
  refine ⟨_, _, encoded, rfl, exec_of_effect (i := .frmDecode _) decoded, rfl, ?_⟩
  have stored := congrArg (fun r : Registers => { r with crc := s.regs.fchk, status := 0x00#8 })
    (withResponse_self valid inv)
  rw [← stored, inv.checksum valid]
  rfl

end Sys2Proof.Machine
end

section
/-! PROOFS. Sequences of commands: the stream of CRC.UPDATE (40_crc.md R106; 70_reset_and_hazards.md R194,
R196), and what stays of the frame until a command writes it (41_frame.md R129, R132). -/

namespace Sys2Proof.Machine

/-! ### The stream of CRC.UPDATE -/

theorem commandsRun_cons (i : Instr) (is : List Instr) (s : State) :
    commandsRun (i :: is) s = commandsRun is (s.complete (effect i s.regs)) := by
  rw [commandsRun, exec_eq_effect]

theorem crcFold_filterMap_cons (c : Half) (i : Instr) (is : List Instr) :
    crcFold c ((i :: is).filterMap updatedByte) =
      crcFold (crcFold c (updatedByte i).toList) (is.filterMap updatedByte) := by
  rw [List.filterMap_cons]
  cases updatedByte i <;> rfl

/-- Commands that keep the stream complete, and fold their bytes into CRC in their order. -/
theorem commandsRun_of_keepsStream {is : List Instr} (keeps : ∀ i ∈ is, keepsStream i = true)
    (s : State) :
    ∃ t, commandsRun is s = .next t ∧ t.regs.crc = crcFold s.regs.crc (is.filterMap updatedByte) := by
  induction is generalizing s with
  | nil => exact ⟨s, rfl, rfl⟩
  | cons i is ih =>
    obtain ⟨t, run, crc⟩ :=
      ih (fun j hj => keeps j (List.mem_cons_of_mem i hj)) (s.complete (effect i s.regs))
    refine ⟨t, (commandsRun_cons i is s).trans run, ?_⟩
    rw [crc, State.complete_regs, effect_crc_of_keepsStream (keeps i List.mem_cons_self),
      crcFold_filterMap_cons]

/-- Settles O9: CRC.INIT leaves the seed, and the commands after it fold their bytes into it. -/
theorem streamedCrcIsCrc16OfTheBytes : Obligations.StreamedCrcIsCrc16OfTheBytes := by
  unfold Obligations.StreamedCrcIsCrc16OfTheBytes
  refine ⟨fun s is keeps => ?_, crc16_append⟩
  rw [commandsRun_cons]
  exact commandsRun_of_keepsStream keeps _

/-! ### What commands keep -/

/-- What holds at the start and what every allowed command keeps holds at the end. -/
theorem ReachedBy.invariant {allowed : Instr → State → Prop} {P : State → Prop}
    (keeps : ∀ i s, P s → allowed i (s.complete (effect i s.regs)) →
      P (s.complete (effect i s.regs)))
    {s u : State} (reached : ReachedBy allowed s u) (start : P s) : P u := by
  induction reached with
  | refl => exact start
  | step _ run ok ih =>
    obtain rfl := exec_next run
    exact keeps _ _ ih ok

/-- Without a successful load there is still no frame. -/
theorem effect_valid_of_noFrame {i : Instr} {r : Registers} (noFrame : r.valid = false)
    (failed : isLoad i = true → (effect i r).regs.status ≠ 0x00#8) :
    (effect i r).regs.valid = false := by
  cases load : isLoad i with
  | false => exact (effect_keeps_request load r).1.trans noFrame
  | true =>
    obtain ⟨v, h⟩ := effect_of_failed_load load (failed load)
    rw [h]

theorem noFrame_of_noSuccessfulLoad {s u : State}
    (reached : ReachedBy (fun i v => isLoad i = true → v.regs.status ≠ 0x00#8) s u)
    (noFrame : s.regs.valid = false) : u.regs.valid = false :=
  reached.invariant (P := fun s => s.regs.valid = false)
    (fun _ _ noFrame failed => effect_valid_of_noFrame noFrame failed) noFrame

/-- Settles O21: the failed load has cleared FRM_VALID, and only a successful one sets it again. -/
theorem noTransmissionAfterAFailedLoad : Obligations.NoTransmissionAfterAFailedLoad := by
  unfold Obligations.NoTransmissionAfterAFailedLoad
  intro s t u id cmd pay run failed reached
  obtain rfl := exec_next run
  obtain ⟨v, h⟩ := effect_of_failed_load (i := .frmLoad id cmd pay) rfl failed
  exact exec_frmEncode_of_noFrame (noFrame_of_noSuccessfulLoad reached (by rw [State.complete_regs, h]))

/-- Settles O43: at reset CRC is the seed and FRM_VALID is 0. -/
theorem frameCommandsNeedALoadAfterReset : Obligations.FrameCommandsNeedALoadAfterReset := by
  unfold Obligations.FrameCommandsNeedALoadAfterReset
  refine ⟨fun is keeps => commandsRun_of_keepsStream keeps State.reset, fun u reached => ?_⟩
  have noFrame := noFrame_of_noSuccessfulLoad reached rfl
  exact ⟨exec_frmEncode_of_noFrame noFrame, exec_frmDecode_of_noFrame noFrame,
    exec_frmRead_of_noFrame noFrame⟩

/-- Settles O24: FRM.ENCODE and every allowed command keep the frame, and the response of FRM.ENCODE
depends on the frame alone. -/
theorem encodeIsRepeatableUntilTheFrameIsWritten :
    Obligations.EncodeIsRepeatableUntilTheFrameIsWritten := by
  unfold Obligations.EncodeIsRepeatableUntilTheFrameIsWritten
  refine ⟨fun s t run => ?_, fun s t u v first reached second => ?_⟩
  · obtain rfl := exec_next run
    exact emitFrame_sameFrame s.regs
  · obtain rfl := exec_next first
    obtain rfl := exec_next second
    have same : SameFrame s.regs u.regs :=
      reached.invariant (P := fun x => SameFrame s.regs x.regs)
        (fun _ _ same allowed => same.trans (effect_sameFrame allowed.1 allowed.2))
        (emitFrame_sameFrame s.regs)
    refine ⟨(emitFrame s.regs).rsp, rfl, ?_⟩
    rw [← emitFrame_rsp_of_sameFrame same]
    rfl

end Sys2Proof.Machine
end

section
/-! PROOFS. Transactions and ports (30_encoding.md R60, R66, R67, R76; 42_status.md R151 to R153;
70_reset_and_hazards.md R199, R202, R205): completion, the handshake, and hosts that wait or are eager. -/

namespace Sys2Proof.Machine

/-! ### Whole transactions -/

/-- Only the word of STAT.READ leaves STATUS as it was. -/
theorem answer_rsp_head {w : CommandWord} {opds : List OperandWord} (count : opds.length = need w)
    (other : w ≠ 0x20000000#32) (r : Registers) :
    (answer ⟨w, opds⟩ r).rsp.head? = some (answer ⟨w, opds⟩ r).regs.status := by
  rcases decode_of_count (t := ⟨w, opds⟩) count with ⟨i, h⟩ | h
  · have notStat : i ≠ .statRead := by
      rintro rfl
      exact other (congrArg Transaction.word (encode_of_decode h).1).symm
    rw [answer_of_decode h]
    exact (effect_ends notStat r).rsp_head
  · rw [answer_of_illegal h]
    rfl

/-- Settles O36: the answer of a well-formed transaction is legal, and its code is in STATUS unless the
command is STAT.READ. -/
theorem everyWellFormedTransactionCompletes : Obligations.EveryWellFormedTransactionCompletes := by
  unfold Obligations.EveryWellFormedTransactionCompletes
  intro s w opds idle count
  obtain ⟨code, data, rsp, small, alone⟩ := legalResponse_answer (t := ⟨w, opds⟩) count s.regs
  refine ⟨s.after (answer ⟨w, opds⟩ s.regs).regs (code :: data), code, data, ?_, rfl, small, alone,
    fun other => ?_⟩
  · rw [step_issuing idle, transact_of_count (t := ⟨w, opds⟩) count, State.complete_eq_after, rsp]
  · have head := answer_rsp_head count other s.regs
    rw [rsp] at head
    exact (Option.some.inj head).symm

/-- Settles O38: what the host waits for, then the decoded command. -/
theorem stepRunsTheDecodedCommand : Obligations.StepRunsTheDecodedCommand := by
  unfold Obligations.StepRunsTheDecodedCommand
  refine ⟨fun s t rest i idle inbox h => ?_, fun s t rest i sent left sending inbox h => ?_,
    fun s => step_nil⟩
  · rw [step_transaction inbox, issue_idle (s := { s with inbox := rest }) idle, transact_ok h]
  · rw [step_transaction inbox, issue_sending (s := { s with inbox := rest }) sending, transact_ok h]

/-! ### Outputs by phase (R60) -/

theorem live_of_stall {s : State} (h : s.stall = 0) : s.live = true := by
  rw [State.live, h]
  rfl

theorem cmdReady_iff {s : State} : cmdReady s = true ↔ s.phase = .idle ∧ s.live = true := by
  simp [cmdReady]

theorem opdReady_iff {s : State} :
    opdReady s = true ↔ (∃ w taken, s.phase = .taking w taken) ∧ s.live = true := by
  unfold opdReady
  cases s.phase <;> simp

theorem rspValid_iff {s : State} :
    rspValid s = true ↔ (∃ sent b rest, s.phase = .sending sent (b :: rest)) ∧ s.live = true := by
  unfold rspValid pendingBeats
  cases s.phase with
  | sending sent rest => cases rest <;> simp
  | _ => simp

theorem opdReady_of_not_taking {s : State} (h : ∀ w taken, s.phase ≠ .taking w taken) :
    opdReady s = false := by
  rw [Bool.eq_false_iff, Ne, opdReady_iff]
  rintro ⟨⟨w, taken, phase⟩, -⟩
  exact h w taken phase

/-- While a beat is offered, rsp_data and rsp_last are those of the beats still to be sent. -/
theorem portOut_rsp {s : State} {sent rest : List Byte} {b : Byte}
    (phase : s.phase = .sending sent (b :: rest)) (live : s.live = true) :
    (portOut s).rspData = b ∧ ((portOut s).rspLast = true ↔ rest = []) := by
  have valid : rspValid s = true := rspValid_iff.mpr ⟨⟨sent, b, rest, phase⟩, live⟩
  have beats : pendingBeats s = b :: rest := by rw [pendingBeats, phase]
  simp only [portOut, valid, if_true, beats]
  exact ⟨rfl, by simp⟩

/-! ### Inputs that do not matter (R60) -/

/-- Edges with the same rst_n and the same transfers are equal. -/
theorem portEdge_congr {p q : PortIn} {s : State} (rst : p.rstN = q.rstN)
    (transfers : s.live = true → transferEdge p s = transferEdge q s) :
    portEdge p s = portEdge q s := by
  unfold portEdge
  rw [rst]
  cases live : s.live with
  | false => rfl
  | true => rw [transfers live]

section Ignored

variable {s : State} (p : PortIn)

theorem portEdge_ignores_cmd (h : cmdReady s = false) (v : Bool) (d : CommandWord) :
    portEdge { p with cmdValid := v, cmdData := d } s = portEdge p s := by
  refine portEdge_congr rfl fun live => ?_
  unfold transferEdge
  cases phase : s.phase with
  | idle => simp [cmdReady_iff.mpr ⟨phase, live⟩] at h
  | _ => rfl

theorem portEdge_ignores_opd (h : opdReady s = false) (v : Bool) (d : OperandWord) :
    portEdge { p with opdValid := v, opdData := d } s = portEdge p s := by
  refine portEdge_congr rfl fun live => ?_
  unfold transferEdge
  cases phase : s.phase with
  | taking w taken => simp [opdReady_iff.mpr ⟨⟨w, taken, phase⟩, live⟩] at h
  | _ => rfl

theorem portEdge_ignores_rsp (inv : s.Inv) (h : rspValid s = false) (v : Bool) :
    portEdge { p with rspReady := v } s = portEdge p s := by
  refine portEdge_congr rfl fun live => ?_
  unfold transferEdge
  cases phase : s.phase with
  | sending sent rest =>
    have legal := inv.phase
    rw [phase] at legal
    obtain ⟨b, more, rfl⟩ := List.exists_cons_of_ne_nil legal.1
    simp [rspValid_iff.mpr ⟨⟨sent, b, more, phase⟩, live⟩] at h
  | _ => rfl

end Ignored

/-- Settles O46: an edge looks at a channel only in the phase that drives its ready or valid, and those
are driven in that phase alone. -/
theorem channelsTransferOnlyWhenReady : Obligations.ChannelsTransferOnlyWhenReady := by
  unfold Obligations.ChannelsTransferOnlyWhenReady
  refine ⟨fun s p v d h => portEdge_ignores_cmd p h v d, fun s p v d h => portEdge_ignores_opd p h v d,
    fun s p v h inv => portEdge_ignores_rsp p inv h v, fun s h => (cmdReady_iff.mp h).1,
    fun s inv h => ?_, fun s h => ?_⟩
  · obtain ⟨⟨w, taken, phase⟩, -⟩ := opdReady_iff.mp h
    have legal := inv.phase
    rw [phase] at legal
    exact ⟨w, taken, phase, legal⟩
  · obtain ⟨⟨sent, b, rest, phase⟩, live⟩ := rspValid_iff.mp h
    exact ⟨sent, b, rest, phase, portOut_rsp phase live⟩

/-! ### Words taken at the ports (R66, R76, R151) -/

section Words

variable {s : State} {p : PortIn} (rst : p.rstN = true)
include rst

theorem portEdge_accepts_word (idle : s.phase = .idle) (live : s.live = true)
    (valid : p.cmdValid = true) : portEdge p s = gather p.cmdData [] s := by
  rw [portEdge_live rst live, transferEdge_idle idle, if_pos valid]

theorem portEdge_takes_operand {w : CommandWord} {taken : List OperandWord}
    (phase : s.phase = .taking w taken) (live : s.live = true) (valid : p.opdValid = true) :
    portEdge p s = gather w (taken ++ [p.opdData]) s := by
  rw [portEdge_live rst live, transferEdge_taking phase, if_pos valid]

theorem portEdge_taking_waits {w : CommandWord} {taken : List OperandWord}
    (phase : s.phase = .taking w taken) (live : s.live = true) (silent : p.opdValid = false) :
    portEdge p s = .next s := by
  rw [portEdge_live rst live, transferEdge_taking phase, silent]
  rfl

theorem portEdge_sending_waits {sent rest : List Byte} (phase : s.phase = .sending sent rest)
    (live : s.live = true) (busy : p.rspReady = false) : portEdge p s = .next s := by
  rw [portEdge_live rst live, transferEdge_sending phase, busy]
  rfl

end Words

/-- Settles O31: an illegal word is a whole transaction, which the edge that accepts it carries out. -/
theorem illegalWordWritesOnlyStatus : Obligations.IllegalWordWritesOnlyStatus := by
  unfold Obligations.IllegalWordWritesOnlyStatus
  intro w illegal
  have none := need_of_illegal illegal
  refine ⟨raisesIllegalOp_of_illegal illegal, none, ?_⟩
  rintro s p idle stall rst valid rfl
  have accepts := portEdge_accepts_word rst idle (live_of_stall stall) valid
  have count : ([] : List OperandWord).length = need p.cmdData := none.symm
  rw [gather_of_count count, perform_of_count (t := ⟨p.cmdData, []⟩) count,
    answer_of_illegal (decode_of_illegal illegal)] at accepts
  exact ⟨opdReady_of_not_taking (by simp [idle]), _, accepts, rfl, rfl, rfl⟩

/-- Settles O37: the transaction level refuses a wrong count, and at the ports a word is taken only by a
command that still needs it. -/
theorem transactionsWithAWrongOperandCount : Obligations.TransactionsWithAWrongOperandCount := by
  unfold Obligations.TransactionsWithAWrongOperandCount
  refine ⟨fun w opds => beq_iff_eq, fun s w opds idle count => ?_, fun s w opds idle wrong => ?_,
    fun s p rst ready silent => ?_, fun s p v d h => portEdge_ignores_opd p h v d,
    fun s p v d idle stall rst valid operands => ?_, fun s p w phase stall rst valid more => ?_⟩
  · exact ⟨_, (step_issuing idle w opds).trans (transact_of_count (t := ⟨w, opds⟩) count s)⟩
  · exact (step_issuing idle w opds).trans (transact_of_wrong_count (t := ⟨w, opds⟩) wrong s)
  · obtain ⟨⟨w, taken, phase⟩, live⟩ := opdReady_iff.mp ready
    exact portEdge_taking_waits rst phase live silent
  · have accepts := portEdge_accepts_word (p := { p with opdValid := v, opdData := d }) rst idle
      (live_of_stall stall) valid
    exact ⟨_, accepts.trans (gather_of_lt (taken := []) operands s), rfl⟩
  · have takes := portEdge_takes_operand rst phase (live_of_stall stall) valid
    exact ⟨_, takes.trans (gather_of_lt (taken := [p.opdData]) more s), rfl⟩

/-! ### A host that makes the block wait (R199, R202) -/

/-- Edges that change nothing, whatever inputs are still to come, leave the state as it is. -/
theorem run_edges_of_waits {s : State} {ps : List PortIn}
    (waits : ∀ p ∈ ps, ∀ l, portEdge p { s with inbox := l } = .next { s with inbox := l }) :
    ({ s with inbox := ps.map .clockEdge ++ s.inbox } : State).run ps.length = .next s := by
  induction ps with
  | nil => rfl
  | cons p ps ih =>
    rw [List.length_cons, State.run, step_clockEdge rfl, waits p List.mem_cons_self]
    exact ih fun q hq => waits q (List.mem_cons_of_mem p hq)

/-- Settles O49: no edge without the beat it waits for changes anything. -/
theorem blockWaitsForItsHost : Obligations.BlockWaitsForItsHost := by
  unfold Obligations.BlockWaitsForItsHost
  refine ⟨fun s w taken ps phase stall silent => ?_, fun s sent rest ps phase stall busy => ?_⟩
  · have live := live_of_stall stall
    refine ⟨run_edges_of_waits fun p hp l => ?_, opdReady_iff.mpr ⟨⟨w, taken, phase⟩, live⟩,
      by simp [portOut, cmdReady, phase]⟩
    exact portEdge_taking_waits (s := { s with inbox := l }) (silent p hp).1 phase live (silent p hp).2
  · have live := live_of_stall stall
    refine ⟨run_edges_of_waits fun p hp l => ?_, by simp [portOut, cmdReady, phase]⟩
    exact portEdge_sending_waits (s := { s with inbox := l }) (busy p hp).1 phase live (busy p hp).2

/-! ### A host that is always ready (R76, R205) -/

/-- Finitely many edges of the eager host lead from `s` to `u`. -/
def Eager (t : Transaction) (s u : State) : Prop := ∃ k, eagerRun t k s = .next u

theorem Eager.refl (t : Transaction) (s : State) : Eager t s s := ⟨0, rfl⟩

theorem Eager.edge {t : Transaction} {s u v : State} (first : portEdge (eagerEdge t s) s = .next u)
    (rest : Eager t u v) : Eager t s v := by
  obtain ⟨k, run⟩ := rest
  exact ⟨k + 1, by rw [eagerRun, first]; exact run⟩

theorem Eager.trans {t : Transaction} {s u v : State} (first : Eager t s u) (rest : Eager t u v) :
    Eager t s v := by
  obtain ⟨k, run⟩ := first
  induction k generalizing s with
  | zero =>
    cases run
    exact rest
  | succ k ih =>
    rw [eagerRun] at run
    split at run
    · exact .edge ‹_› (ih run)
    · cases run
    · cases run

/-- A pending stall passes, whatever it is. -/
theorem eager_stall (t : Transaction) (s : State) : Eager t s { s with stall := 0 } := by
  obtain ⟨n, stall⟩ : ∃ n, s.stall = n := ⟨_, rfl⟩
  induction n generalizing s with
  | zero => exact stall ▸ .refl t s
  | succ n ih =>
    have pending : s.live = false := by simp [State.live, stall]
    exact .edge (portEdge_stall rfl pending) (ih _ (by simp [stall]))

/-- Once the stall has passed, the edge transfers. -/
theorem eager_transfer {t : Transaction} {s u v : State}
    (first : transferEdge (eagerEdge t s) { s with stall := 0 } = .next u) (rest : Eager t u v) :
    Eager t s v :=
  (eager_stall t s).trans (.edge ((portEdge_live rfl rfl).trans first) rest)

/-- A response is drained beat by beat, and then recorded. -/
theorem eager_drains {t : Transaction} {s : State} {sent rest : List Byte}
    (phase : s.phase = .sending sent rest) :
    ∃ u, Eager t s u ∧ u.phase = .idle ∧ u.regs = s.regs ∧
      u.responses = s.responses ++ [sent ++ rest] ∧ u.inbox = s.inbox := by
  induction rest generalizing s sent with
  | nil =>
    have last := transferEdge_sending (s := { s with stall := 0 }) phase (eagerEdge t s)
    exact ⟨_, eager_transfer last (.refl t _), rfl, rfl, rfl, rfl⟩
  | cons b rest ih =>
    have beat : transferEdge (eagerEdge t s) { s with stall := 0 } =
        .next (transferBeat sent (b :: rest) { s with stall := 0 }) :=
      transferEdge_sending (s := { s with stall := 0 }) phase (eagerEdge t s)
    rcases transferBeat_cases sent (b :: rest) { s with stall := 0 } with ⟨c, more, -, same, h⟩ | h
    · rw [h] at beat
      obtain ⟨rfl, rfl⟩ := List.cons.inj same
      obtain ⟨u, run, idle, regs, rsps, inbox⟩ :=
        ih (s := State.enter { s with stall := 0 } (.sending (sent ++ [b]) rest)) rfl
      exact ⟨u, eager_transfer beat run, idle, regs, rsps.trans (by simp), inbox⟩
    · rw [h] at beat
      exact ⟨_, eager_transfer beat (.refl t _), rfl, rfl, rfl, rfl⟩

/-- From the words taken so far the transaction is completed, and its response recorded. -/
theorem eager_completes {w : CommandWord} {opds : List OperandWord} (count : opds.length = need w)
    {taken rest : List OperandWord} (split : opds = taken ++ rest) (s : State) :
    ∃ v u, gather w taken s = .next v ∧ Eager ⟨w, opds⟩ v u ∧ u.phase = .idle ∧
      u.regs = (answer ⟨w, opds⟩ s.regs).regs ∧
      u.responses = s.responses ++ [(answer ⟨w, opds⟩ s.regs).rsp] ∧ u.inbox = s.inbox := by
  induction rest generalizing s taken with
  | nil =>
    obtain rfl : opds = taken := by simpa using split
    obtain ⟨u, run, idle, regs, rsps, inbox⟩ := eager_drains (t := ⟨w, opds⟩) (s := State.enter
      { s with regs := (answer ⟨w, opds⟩ s.regs).regs } (.sending [] (answer ⟨w, opds⟩ s.regs).rsp)) rfl
    exact ⟨_, u, (gather_of_count count s).trans (perform_of_count (t := ⟨w, opds⟩) count s), run, idle,
      regs, rsps, inbox⟩
  | cons x rest ih =>
    have short : taken.length < need w := by rw [← count, split]; simp
    obtain ⟨v, u, next, run, result⟩ := ih (taken := taken ++ [x]) (by simp [split])
      ({ s.enter (.taking w taken) with stall := 0 })
    have offered : (eagerEdge ⟨w, opds⟩ (s.enter (.taking w taken))).opdData = x := by
      simp [eagerEdge, split]
    have takes := transferEdge_taking (s := { s.enter (.taking w taken) with stall := 0 }) rfl
      (eagerEdge ⟨w, opds⟩ (s.enter (.taking w taken)))
    rw [offered] at takes
    exact ⟨_, u, gather_of_lt short s, eager_transfer (takes.trans next) run, result⟩

/-- Settles O48: stalls pass, the words are taken one by one, and the response is drained. -/
theorem patientHostGetsEveryTransactionDone : Obligations.PatientHostGetsEveryTransactionDone := by
  unfold Obligations.PatientHostGetsEveryTransactionDone
  intro s u w opds idle count run
  rw [step_issuing idle, transact_of_count (t := ⟨w, opds⟩) count] at run
  cases run
  obtain ⟨v, t, first, rest, idle', regs, rsps, inbox⟩ :=
    eager_completes count (List.nil_append opds).symm { s with stall := 0 }
  have accepts := transferEdge_idle (s := { s with stall := 0 }) idle (eagerEdge ⟨w, opds⟩ s)
  obtain ⟨k, run⟩ := eager_transfer (accepts.trans first) rest
  exact ⟨k, t, run, idle', regs, rsps, inbox⟩

end Sys2Proof.Machine
end

section
/-! PROOFS. The assembler (30_encoding.md R74, R75): the transactions of each line, and the run of
`crc.compute` (40_crc.md R106). -/

namespace Sys2Proof.Machine

/-! ### Literals and lines (R74) -/

/-- Converting the numbers of words gives the words. -/
theorem mapM_toNat {α : Type} {n : Nat} (f : Int → Option α) (g : BitVec n → α)
    (h : ∀ b : BitVec n, f b.toNat = some (g b)) (bs : List (BitVec n)) :
    (bs.map fun b => (b.toNat : Int)).mapM f = some (bs.map g) := by
  induction bs with
  | nil => rfl
  | cons b bs ih =>
    rw [List.map_cons, List.mapM_cons, h, ih]
    rfl

theorem updateTransaction_toNat (b : Byte) :
    updateTransaction b.toNat = some ⟨0x02000000#32 ||| b.setWidth 32, []⟩ := by
  rw [updateTransaction, fieldOfInt_toNat, Option.map_some, encode, commandWord_crcUpdate]

theorem updateTransaction_outOfRange {v : Int} (h : v < 0 ∨ 255 < v) : updateTransaction v = none := by
  rw [updateTransaction, fieldOfInt_none 8 v (by omega), Option.map_none]

/-- Values that the host can convert become operand words in the written order (R63). -/
theorem mapM_operandOfInt {vs : List Int} (h : ∀ v ∈ vs, -32768 ≤ v ∧ v ≤ 65535) :
    vs.mapM operandOfInt = some (vs.map (BitVec.ofInt 16)) :=
  mapM_of_forall _ _ vs fun v hv => operandOfInt_of_inRange (h v hv).1 (h v hv).2

theorem loadTransaction_of_fits (id cmd : OperandWord) {pay : List OperandWord}
    (fits : pay.length ≤ 65535) :
    loadTransaction (id :: cmd :: pay) =
      some ⟨0x10000000#32 ||| BitVec.ofNat 32 pay.length, id :: cmd :: pay⟩ := by
  rw [loadTransaction, if_pos fits, encode_frmLoad id cmd fits]

theorem decodeTransaction_of_fits {raw : List OperandWord} (fits : raw.length ≤ 65535) :
    decodeTransaction raw = some ⟨0x12000000#32 ||| BitVec.ofNat 32 raw.length, raw⟩ := by
  rw [decodeTransaction, if_pos fits, encode_frmDecode fits]

theorem assemble_frmLoad {id cmd : Int} {pay : List Int} (fits : pay.length ≤ 65535)
    (inRange : ∀ v ∈ id :: cmd :: pay, -32768 ≤ v ∧ v ≤ 65535) :
    assembleTransactions (.frmLoad id cmd pay) =
      some [⟨0x10000000#32 ||| BitVec.ofNat 32 pay.length,
        (id :: cmd :: pay).map (BitVec.ofInt 16)⟩] := by
  have load := loadTransaction_of_fits (BitVec.ofInt 16 id) (BitVec.ofInt 16 cmd)
    (pay := pay.map (BitVec.ofInt 16)) (by rwa [List.length_map])
  rw [List.length_map] at load
  rw [assembleTransactions, mapM_operandOfInt inRange, Option.bind_some, List.map_cons, List.map_cons,
    load, Option.map_some]

theorem assemble_frmDecode {raw : List Int} (fits : raw.length ≤ 65535)
    (inRange : ∀ v ∈ raw, -32768 ≤ v ∧ v ≤ 65535) :
    assembleTransactions (.frmDecode raw) =
      some [⟨0x12000000#32 ||| BitVec.ofNat 32 raw.length, raw.map (BitVec.ofInt 16)⟩] := by
  have dec := decodeTransaction_of_fits (raw := raw.map (BitVec.ofInt 16)) (by rwa [List.length_map])
  rw [List.length_map] at dec
  rw [assembleTransactions, mapM_operandOfInt inRange, Option.bind_some, dec, Option.map_some]

theorem assemble_cmd (w : CommandWord) (us : List OperandWord) :
    assembleTransactions (.cmd w.toNat (us.map fun u => (u.toNat : Int))) = some [⟨w, us⟩] := by
  have words := mapM_toNat (fieldOfInt 16) id (fieldOfInt_toNat 16) us
  rw [List.map_id] at words
  rw [assembleTransactions, rawTransaction, fieldOfInt_toNat, words]
  rfl

/-- Settles O50: one lemma for each line that has operands. -/
theorem assemblerWritesTheTransactionsOfItsTable :
    Obligations.AssemblerWritesTheTransactionsOfItsTable := by
  unfold Obligations.AssemblerWritesTheTransactionsOfItsTable
  refine ⟨rfl, fun b => ?_, fun v outside => ?_, rfl, fun _ _ _ => assemble_frmLoad, rfl,
    fun _ => assemble_frmDecode, rfl, rfl, assemble_cmd⟩
  · rw [assembleTransactions, updateTransaction_toNat, Option.map_some]
  · rw [assembleTransactions, updateTransaction_outOfRange outside, Option.map_none]

/-! ### The pseudo-instructions (R75) -/

theorem assemble_crcBytes (bs : List Byte) :
    assembleTransactions (.crcBytes (bs.map fun b => (b.toNat : Int))) =
      some (bs.map fun b => ⟨0x02000000#32 ||| b.setWidth 32, []⟩) :=
  mapM_toNat _ _ updateTransaction_toNat bs

/-- The commands of `crc.compute`. -/
def computeCommands (bs : List Byte) : List Instr :=
  .crcInit :: (bs.map .crcUpdate ++ [.crcRead])

theorem encode_computeCommands (bs : List Byte) :
    (computeCommands bs).map encode =
      ⟨0x01000000#32, []⟩ :: (bs.map fun b => ⟨0x02000000#32 ||| b.setWidth 32, []⟩)
        ++ [⟨0x03000000#32, []⟩] := by
  have updates : (bs.map Instr.crcUpdate).map encode =
      bs.map fun b => ⟨0x02000000#32 ||| b.setWidth 32, []⟩ := by
    simp only [List.map_map, Function.comp_def, encode, commandWord_crcUpdate]
  rw [computeCommands, List.map_cons, List.map_append, updates]
  rfl

theorem assemble_crcCompute (bs : List Byte) :
    assembleTransactions (.crcCompute (bs.map fun b => (b.toNat : Int))) =
      some ((computeCommands bs).map encode) := by
  rw [assembleTransactions, mapM_toNat _ _ updateTransaction_toNat, encode_computeCommands]
  rfl

theorem step_given_cons (t : Transaction) (ts : List Transaction) (s : State) :
    step (s.given (t :: ts)) = issue t (s.given ts) :=
  step_transaction rfl

/-- Transactions of commands, issued one after another to an idle block, run the commands. -/
theorem run_given_encodings {is : List Instr} (wf : ∀ i ∈ is, i.wellFormed = true) {s : State}
    (idle : s.phase = .idle) : (s.given (is.map encode)).run is.length = commandsRun is s := by
  induction is generalizing s with
  | nil => rfl
  | cons i is ih =>
    have first : step (s.given ((i :: is).map encode)) =
        .next ((s.complete (effect i s.regs)).given (is.map encode)) := by
      rw [List.map_cons, step_given_cons, issue_idle (s := s.given _) idle,
        transact_ok (decode_encode (wf i List.mem_cons_self)), exec_eq_effect]
      rfl
    rw [List.length_cons, State.run, first, commandsRun_cons]
    exact ih (fun j hj => wf j (List.mem_cons_of_mem i hj)) idle

/-- A stream of CRC.UPDATE and a CRC.READ answer the running value, and write CRC and STATUS only. -/
theorem commandsRun_updates_read (bs : List Byte) (s : State) :
    ∃ t before, commandsRun (bs.map .crcUpdate ++ [.crcRead]) s = .next t ∧
      t.responses = before ++ [[0x00#8, lo8 (crcFold s.regs.crc bs), hi8 (crcFold s.regs.crc bs)]] ∧
      t.regs = { s.regs with crc := crcFold s.regs.crc bs, status := 0x00#8 } := by
  induction bs generalizing s with
  | nil => exact ⟨_, s.responses, commandsRun_cons .crcRead [] s, rfl, rfl⟩
  | cons b bs ih =>
    obtain ⟨t, before, run, rsps, regs⟩ := ih (s.complete (effect (.crcUpdate b) s.regs))
    exact ⟨t, before, (commandsRun_cons _ _ s).trans run, rsps, regs⟩

theorem computeCommands_wellFormed (bs : List Byte) : ∀ i ∈ computeCommands bs, i.wellFormed = true := by
  intro i hi
  simp only [computeCommands, List.mem_cons, List.mem_append, List.mem_map, List.not_mem_nil,
    or_false] at hi
  rcases hi with rfl | ⟨b, -, rfl⟩ | rfl
  · rfl
  · rfl
  · rfl

/-- Settles O51: the expansion is the encoding of CRC.INIT, the updates and CRC.READ, whose run on an
idle block folds the bytes into the seed and reads the result. -/
theorem crcComputeAnswersCrc16 : Obligations.CrcComputeAnswersCrc16 := by
  unfold Obligations.CrcComputeAnswersCrc16
  intro s bs idle
  obtain ⟨t, before, run, rsps, regs⟩ :=
    commandsRun_updates_read bs (s.complete (effect .crcInit s.regs))
  refine ⟨assemble_crcBytes bs, _, t, before, assemble_crcCompute bs, encode_computeCommands bs, ?_, rsps,
    regs⟩
  rw [List.length_map, run_given_encodings (computeCommands_wellFormed bs) idle]
  exact (commandsRun_cons .crcInit _ s).trans run

end Sys2Proof.Machine
end
